-- ==== Sys2Proof/Word.lean ====
section
/-! DEFINITION. The words of the block and the plain two-valued vocabulary (spec 00_scope R6, R7). -/

namespace Sys2Proof

/-- Register `cursor`, and an address of `pattern_rom`: 3 bits (R6 `CURSOR_W`). -/
abbrev Cursor := BitVec 3

/-- A Step Pattern packed as R7 says: bit 3 is line 1, bit 0 is line 4. -/
abbrev Pattern := BitVec 4

/-- The operand `count` of `STEP_FOR` (R6 `COUNT_W` = 32). -/
abbrev Count := BitVec 32

/-- The operand `delay_ms` of `STEP_FOR` (R6 `DELAY_W` = 32). -/
abbrev DelayMs := BitVec 32

/-- The opaque cause of a failed output write (R6 `CAUSE_W` = 8). -/
abbrev Cause := BitVec 8

/-- A command word (R6 `CMD_W` = 66, R52). -/
abbrev CmdWord := BitVec 66

/-- A response word (R6 `RSP_W` = 13, R56). -/
abbrev RspWord := BitVec 13

/-- The contents of `pattern_rom`: 8 entries of 4 bits (R6 `N`, R70). -/
abbrev Rom := Vector Pattern 8

/-- The Direction (R7, R11). -/
inductive Direction where
  | forward
  | reverse
  deriving DecidableEq, Repr, Inhabited

/-- A level of an output line (R7). -/
inductive Level where
  | low
  | high
  deriving DecidableEq, Repr, Inhabited

/-- What a line does when a write to it fails or is abandoned: it keeps what it had, or takes either
level (R15: "a model must allow HIGH, LOW or the previous value"). -/
inductive LineFate where
  | keeps
  | takes (v : Level)
  deriving DecidableEq, Repr, Inhabited

end Sys2Proof
end

