-- ==== Sys2Proof/Syntax.lean ====
section
/-! DEFINITION. The commands: one constructor per row of spec/opcode_table.json (30_encoding R53). -/

namespace Sys2Proof

/-- The command set. -/
inductive Instr where
  /-- `SET_DIR d` (R82). -/
  | setDir (d : Direction)
  /-- `STEP` (R84). -/
  | step
  /-- `STEP_FOR count, delay_ms` (R100). -/
  | stepFor (count : Count) (delayMs : DelayMs)
  /-- The pseudo-command a word with the reserved opcode decodes to (R55). -/
  | illegal
  deriving DecidableEq, Repr

end Sys2Proof
end

