-- ==== Sys2Proof/Machine/Operands.lean ====
section
/-! DEFINITION. The operand forms: fields of the command word as they stand (30_encoding R52, R54), and the
bit values of a direction and a level (00_scope R7). -/

namespace Sys2Proof.Machine

/-- Field `op`, `cmd[65:64]` (R52). -/
def opField (w : CmdWord) : BitVec 2 := w.extractLsb' 64 2

/-- Field `d`, `cmd[0]` (R52, format D). -/
def dField (w : CmdWord) : BitVec 1 := w.extractLsb' 0 1

/-- Field `count`, `cmd[63:32]` (R52, format R). -/
def countField (w : CmdWord) : Count := w.extractLsb' 32 32

/-- Field `delay_ms`, `cmd[31:0]` (R52, format R). -/
def delayField (w : CmdWord) : DelayMs := w.extractLsb' 0 32

/-- `Forward` = 0, `Reverse` = 1 (R7). -/
def directionBit : Direction → BitVec 1
  | .forward => 0b0#1
  | .reverse => 0b1#1

/-- The direction a bit stands for (R7). -/
def directionOfBit (b : BitVec 1) : Direction :=
  if b = 0b1#1 then .reverse else .forward

/-- `HIGH` = 1, `LOW` = 0 (R7). -/
def levelOfBit (b : Bool) : Level :=
  if b then .high else .low

/-- The port value of a level: 1 = HIGH (R7, R51 `out_level`). -/
def levelBit : Level → BitVec 1
  | .low => 0b0#1
  | .high => 0b1#1

end Sys2Proof.Machine
end

