-- ==== Sys2Proof/WellFormed.lean ====
section
/-! DEFINITION. Which terms of Instr a host may issue (30_encoding R54, R55). -/

namespace Sys2Proof

/-- The one check: the reserved opcode's pseudo-command is not a command ("The host must not issue it", R55).
Every operand value is legal (R54), so nothing else is checked. -/
def Instr.WellFormed : Instr → Bool
  | .setDir _ => true
  | .step => true
  | .stepFor _ _ => true
  | .illegal => false

end Sys2Proof
end

