-- ==== Sys2Proof/Decode.lean ====
section
/-! DEFINITION. Decoding and encoding of command words (30_encoding R52 to R58). -/

namespace Sys2Proof

open Machine

/-- `decode` of R57: total, reads no state; the reserved opcode is rejected by name as `ILLEGAL` (R55). -/
def decode (w : CmdWord) : Instr :=
  if opField w = 0b01#2 then .setDir (directionOfBit (dField w))
  else if opField w = 0b10#2 then .step
  else if opField w = 0b11#2 then .stepFor (countField w) (delayField w)
  else .illegal

/-- `encode` of R57, ignored bits 0. The pseudo-command `ILLEGAL` has no word of its own (R57 gives none,
log 12). -/
def encode : Instr → Option CmdWord
  | .setDir d => some (0b01#2 ++ (0#63 ++ directionBit d))
  | .step => some (0b10#2 ++ 0#64)
  | .stepFor count delayMs => some (0b11#2 ++ (count ++ delayMs))
  | .illegal => none

/-- The instruction the decoder reads from a word whose bits are `w`, bit 0 least significant, `nbits` bits of
which are given. The command port is 66 bits wide: a number with a bit above bit 65 is no command word. -/
def decodeTableWord (nbits w : Nat) : Option Instr :=
  if w % 2 ^ nbits < 2 ^ 66 then some (decode (BitVec.ofNat 66 (w % 2 ^ nbits))) else none

end Sys2Proof
end

