-- ==== Sys2Proof/Config.lean ====
section
/-! DEFINITION. The open parameters of spec 00_scope R6 with the values State.reset takes, and the free
values of the spec (constants with no body). -/

namespace Sys2Proof.Config

/-- `TABLE_HALFSTEP_DEFAULT` of R74, addresses 0 to 7. PRESUMED (the spec's G1: general knowledge; unsafe):
log 4. The machine reads the table its State carries; only State.reset names this one. -/
def defaultTable : Rom :=
  #v[0b1000#4, 0b1100#4, 0b0100#4, 0b0110#4, 0b0010#4, 0b0011#4, 0b0001#4, 0b1001#4]

/-- The level of the strap `HAS_DELAY` that State.reset is taken to have latched. DESIGN CHOICE (R12: "it has
no fixed default"; unsafe): log 5. -/
def resetStrap : Bool := true

/-- Free value: what line `k` does at the n-th draw, after a write to it failed or was abandoned by a reset
(R15, R142, U1, U4). Safe: log 6. -/
opaque failedWriteFate : Nat → LineFate

/-- Free value: `cursor` between power-up and the first reset (R143, U18). Safe: log 10. -/
opaque powerUpCursor : Nat → Cursor

/-- Free value: `dir` between power-up and the first reset (R143, U18). Safe: log 10. -/
opaque powerUpDir : Nat → Direction

/-- Free value: `has_delay` between power-up and the first reset (R143, U18). Safe: log 10. -/
opaque powerUpHasDelay : Nat → Bool

/-- Free value: `busy` between power-up and the first reset (R143, U18). Safe: log 10. -/
opaque powerUpBusy : Nat → Bool

/-- Free value: `wire` of R16 where no write of a step comes next (R16, R19, U3: `any value`). Safe: log 7. -/
opaque unspecifiedWire : Nat → Nat → BitVec 3

/-- Free value: `run_remaining` of R16 outside a `STEP_FOR` (R16, R19, U3: `any value`). Safe: log 7. -/
opaque unspecifiedRunRemaining : Nat → Nat → Count

/-- Free value: `run_delay` of R16 outside a `STEP_FOR` (R16, R19, U3: `any value`). Safe: log 7. -/
opaque unspecifiedRunDelay : Nat → Nat → DelayMs

/-- Free value: port `out_level` while no write is requested (R51 gives it no meaning then). Safe: log 22. -/
opaque unspecifiedOutLevel : Nat → Nat → BitVec 1

/-- Free value: port `dly_ms` while no wait is requested (R51 gives it no meaning then). Safe: log 22. -/
opaque unspecifiedDlyMs : Nat → Nat → DelayMs

/-- Free value: port `out_req[4:1]` between power-up and the first reset (R51, R143). Safe: log 10. -/
opaque powerUpOutReq : Nat → BitVec 4

/-- Free value: port `dly_req` between power-up and the first reset (R51, R143). Safe: log 10. -/
opaque powerUpDlyReq : Nat → Bool

end Sys2Proof.Config
end

