-- ==== Sys2Proof/Machine/State.lean ====
section
/-! DEFINITION. The state of the block (spec 10_state R10 to R19), of the capabilities it drives (00_scope R5,
R8) and the observation (R9); the reasons a step can stop; the state after reset. -/

namespace Sys2Proof.Machine

/-- The four output lines, in wire order 1, 2, 3, 4 (R7, R30). -/
inductive LineNo where
  | one
  | two
  | three
  | four
  deriving DecidableEq, Repr

/-- `line[k]` of R15: no known level yet, or a level. -/
inductive LineLevel where
  | unwritten
  | driven (v : Level)
  deriving DecidableEq, Repr

/-- How an output capability answers a level write (R8 `OutWrite`). -/
inductive WriteAnswer where
  | ok
  | fail (cause : Cause)
  deriving DecidableEq, Repr

/-- What becomes of one write request: it is answered, or it never is (R107, U10). -/
inductive WriteReply where
  | answered (a : WriteAnswer)
  | silent
  deriving DecidableEq, Repr

/-- What becomes of one wait request: it ends, or it never does (R109: a wait has no error answer). -/
inductive WaitReply where
  | done
  | silent
  deriving DecidableEq, Repr

/-- The replies a capability will give: those listed, oldest first, and the same reply to every later request.
Inputs of the environment (R5, U6), as plain data: log 2. -/
structure Script (α : Type) where
  queue : List α
  rest : α
  deriving DecidableEq, Repr

/-- One output capability: the level its line holds (R15) and its replies to come. -/
structure OutputCap where
  level : LineLevel
  replies : Script WriteReply
  deriving DecidableEq, Repr

/-- The four output capabilities, one per line (R5). -/
structure Outputs where
  out1 : OutputCap
  out2 : OutputCap
  out3 : OutputCap
  out4 : OutputCap
  deriving DecidableEq, Repr

/-- The response of a command (R8 `return S`, R121). -/
inductive Response where
  | ok
  | outputWriteFailed (line : LineNo) (cause : Cause)
  | noDelayConfigured
  | illegalCommand
  deriving DecidableEq, Repr

/-- The events of the trace (R8, R9): `W(k, v, answer)`, `D(ms)`, `Rsp(S)`. -/
inductive Event where
  | write (line : LineNo) (level : Level) (answer : WriteAnswer)
  | delay (ms : DelayMs)
  | rsp (r : Response)
  deriving DecidableEq, Repr

/-- The control states of R106, which carry the hidden run state of R16 (`wire` = `k`, the steps still to do
after the current one = `rem`, `run_delay` = `m`; `run` tells a `STEP_FOR` from a `STEP`), and the time between
power-up and the first reset, when the run state is unspecified (R143, logs 10, 23). -/
inductive Ctrl where
  | powerUp
  | idle
  | write (k : LineNo) (rem : Count) (m : DelayMs) (run : Bool)
  | wait (rem : Count) (m : DelayMs)
  deriving DecidableEq, Repr

/-- What the host and the platform do to the block (R50, R140, R143). -/
inductive HostEvent where
  /-- The host presents a command word on `cmd`. -/
  | command (w : CmdWord)
  /-- `rst` is asserted with this level on the strap `HAS_DELAY`. -/
  | reset (strap : Bool)
  /-- Power is removed and restored. -/
  | powerCycle
  deriving DecidableEq, Repr

/-- The machine. `cursor`, `dir`, `hasDelay`, `ctrl` and `rom` are the block's (R10, R11, R12, R16 with R106,
R70); `outs` and `waits` are the capabilities' (R15, R5); `host`, `trace` and `draws` are the model's own:
what the host does next, the observation of R9, and the index of the next free value (logs 9, 8, 6; the
trace over a power cycle: log 24). -/
structure State where
  cursor : Cursor
  dir : Direction
  hasDelay : Bool
  ctrl : Ctrl
  rom : Rom
  outs : Outputs
  waits : Script WaitReply
  host : List HostEvent
  trace : List Event
  draws : Nat
  deriving DecidableEq, Repr

/-- Why the machine stops with no next state. -/
inductive Fault where
  /-- Raised by `step` alone, when a request of the block is never answered and no reset comes: "the block stays
  busy for ever" (R107), U10's `stuck`. Safe: nothing is claimed of such a run. No instruction's meaning raises
  it. -/
  | unansweredRequest
  deriving DecidableEq, Repr

/-- Why a command is given no meaning. -/
inductive Refusal where
  /-- Raised by an arm of `exec` whose instruction has no meaning yet; none is left. Safe. -/
  | notModelled (mnemonic : String)
  /-- Raised by every command between power-up and the first reset: "a command before the first reset is
  `refuse`" (U18, R143). Safe. -/
  | commandBeforeReset
  deriving DecidableEq, Repr

/-- An output capability right after reset: its line is *unwritten* (R15, R19); every write will be answered
ok (DESIGN CHOICE, unsafe: log 2). -/
def OutputCap.reset : OutputCap :=
  { level := .unwritten, replies := { queue := [], rest := .answered .ok } }

/-- The machine right after its first reset since power-up (R19, R140): `cursor` = 0, `dir` = Forward, not busy,
lines unwritten, trace empty. `has_delay` is the strap (log 5), `rom` the table (log 4), the environment's
replies and the host's list are the model's choice (logs 2, 9). -/
def State.reset : State where
  cursor := 0#3
  dir := .forward
  hasDelay := Config.resetStrap
  ctrl := .idle
  rom := Config.defaultTable
  outs := { out1 := OutputCap.reset, out2 := OutputCap.reset, out3 := OutputCap.reset, out4 := OutputCap.reset }
  waits := { queue := [], rest := .done }
  host := []
  trace := []
  draws := 0

end Sys2Proof.Machine
end

