-- ==== Sys2Proof/Machine/Flags.lean ====
section
/-! DEFINITION. The block's one flag, `dir` (10_state R11), and the next-cursor function it selects
(41_cursor_fsm R81). -/

namespace Sys2Proof.Machine

/-- `dir <- d` (R11, R82): nothing else changes. -/
def State.writeDir (d : Direction) (s : State) : State := { s with dir := d }

/-- `advance(c, d)` of R81: a 3-bit addition of +1 or -1 with the carry discarded. -/
def advance (c : Cursor) : Direction → Cursor
  | .forward => c + 0b001#3
  | .reverse => c + 0b111#3

/-- `cursor <- advance(cursor, dir)` (R84): `dir` is read once per step (R11). -/
def State.advanceCursor (s : State) : State := { s with cursor := advance s.cursor s.dir }

end Sys2Proof.Machine
end

