-- ==== Sys2Proof/Machine/PatternRom.lean ====
section
/-! DEFINITION. `pattern_rom`: the lookup and the shape its contents must have (40_pattern_rom R70 to R75), and
the numbering of the lines (00_scope R7). -/

namespace Sys2Proof.Machine

/-- `ROM[a]` for a 3-bit address (R70). -/
def romEntry (rom : Rom) (a : Cursor) : Pattern := rom[a.toNat]'a.isLt

/-- `pattern_at(index)` of R71, for any integer: `ROM[index mod 8]`, Euclidean modulo (R7). -/
def patternAt (rom : Rom) (index : Int) : Pattern := romEntry rom (BitVec.ofInt 3 (index % 8))

/-- The number of a line, 1 to 4 (R7, R121). -/
def LineNo.num : LineNo → Nat
  | .one => 1
  | .two => 2
  | .three => 3
  | .four => 4

/-- The four lines in wire order (R37 (b), R84). -/
def LineNo.all : List LineNo := [.one, .two, .three, .four]

/-- The line written after this one, inside a step (R106 `k + 1`). -/
def LineNo.next? : LineNo → Option LineNo
  | .one => some .two
  | .two => some .three
  | .three => some .four
  | .four => none

/-- `w_k(p)` = `p[4-k]` (R7). -/
def lineBit (k : LineNo) (p : Pattern) : Level := levelOfBit (p.getLsbD (4 - k.num))

/-- How many lines of a pattern are `HIGH`. -/
def highCount (p : Pattern) : Nat :=
  (p.getLsbD 0).toNat + (p.getLsbD 1).toNat + (p.getLsbD 2).toNat + (p.getLsbD 3).toNat

/-- The condition of R73 (c) and (d) at one entry `e` with neighbours `before` and `after`: a two-line entry has
one-line neighbours and is their union; a one-line entry has two-line neighbours. -/
def halfStepAt (before e after : Pattern) : Bool :=
  (highCount e == 2 && highCount before == 1 && highCount after == 1 && e == (before ||| after)) ||
  (highCount e == 1 && highCount before == 2 && highCount after == 2)

/-- `HalfStepWF(TABLE)` of R73: (a), (b), (c) and (d) at every entry, cyclically. -/
def halfStepWF (rom : Rom) : Bool :=
  (List.range 8).all fun i =>
    halfStepAt (patternAt rom (i - 1)) (patternAt rom i) (patternAt rom (i + 1))

end Sys2Proof.Machine
end

