-- ==== Sys2Proof/Machine/Ops.lean ====
section
/-! DEFINITION. The shared operations: the primitives `OutWrite`, `DelayWait` and `return S` of 00_scope R8, the
body of a step (41_cursor_fsm R84), acceptance of a command (42_step_for R106), reset and power-up (70_reset R140
to R143). -/

namespace Sys2Proof.Machine

/-- The reply to the next request. -/
def Script.head {α : Type} (r : Script α) : α := r.queue.headD r.rest

/-- The replies after the next request. -/
def Script.pop {α : Type} (r : Script α) : Script α := { r with queue := r.queue.tail }

/-- The reply to the `i`-th request from now, counting from 0. -/
def Script.nth {α : Type} (r : Script α) (i : Nat) : α := r.queue.getD i r.rest

/-- Output capability `k`. -/
def Outputs.get (o : Outputs) : LineNo → OutputCap
  | .one => o.out1
  | .two => o.out2
  | .three => o.out3
  | .four => o.out4

/-- Replace output capability `k`. -/
def Outputs.set (o : Outputs) (k : LineNo) (c : OutputCap) : Outputs :=
  match k with
  | .one => { o with out1 := c }
  | .two => { o with out2 := c }
  | .three => { o with out3 := c }
  | .four => { o with out4 := c }

/-- `line[k]` (R15). -/
def State.line (s : State) (k : LineNo) : LineLevel := (s.outs.get k).level

/-- The reply output capability `k` gives to the next write. -/
def State.writeReply (s : State) (k : LineNo) : WriteReply := (s.outs.get k).replies.head

/-- The pattern the cursor names. -/
def State.pattern (s : State) : Pattern := patternAt s.rom s.cursor.toNat

/-- Append an event to the trace (R8, R9). -/
def State.record (e : Event) (s : State) : State := { s with trace := s.trace ++ [e] }

/-- The next request to capability `k` has had its reply. -/
def State.popReply (k : LineNo) (s : State) : State :=
  { s with outs := s.outs.set k { s.outs.get k with replies := (s.outs.get k).replies.pop } }

/-- `line[k] <- v` (R8, R15). -/
def State.driveLine (k : LineNo) (v : Level) (s : State) : State :=
  { s with outs := s.outs.set k { s.outs.get k with level := .driven v } }

/-- The level of a line of this level once its write has failed or was abandoned (R15: HIGH, LOW or the previous
value). -/
def levelAfterFate (f : LineFate) (before : LineLevel) : LineLevel :=
  match f with
  | .keeps => before
  | .takes v => .driven v

/-- `line[k] <- unspecified` (R8, R15): the next free value decides (log 6). -/
def State.disturbLine (k : LineNo) (s : State) : State :=
  { s with
    outs := s.outs.set k
      { s.outs.get k with level := (levelAfterFate (Config.failedWriteFate s.draws) (s.outs.get k).level) }
    draws := s.draws + 1 }

/-- `OutWrite(k, v)` of R8: the answer, and the state once it is given. A request that is not answered changes
nothing. -/
def State.outWrite (k : LineNo) (v : Level) (s : State) : WriteReply × State :=
  match s.writeReply k with
  | .silent => (.silent, s)
  | .answered .ok => (.answered .ok, ((s.popReply k).driveLine k v).record (.write k v .ok))
  | .answered (.fail c) => (.answered (.fail c), ((s.popReply k).disturbLine k).record (.write k v (.fail c)))

/-- `DelayWait(ms)` is requested (R8): the event `D(ms)`. -/
def State.requestWait (ms : DelayMs) (s : State) : State := s.record (.delay ms)

/-- The delay capability has ended the wait. -/
def State.endWait (s : State) : State := { s with waits := s.waits.pop }

/-- `return S` (R8): one response, and the block is idle again (R106). The ONE way a command ends, with an error
or without: an error is a returned status (R120), it saves nothing and enters nothing (R126), so there is nothing
to return from (R127). -/
def State.respond (r : Response) (s : State) : State := { s.record (.rsp r) with ctrl := .idle }

/-- How the body of a step ends: all four writes ok; the first write answered `fail(c)`; or a write that is never
answered. -/
inductive BodyEnd where
  | stepped (s : State)
  | writeFailed (k : LineNo) (cause : Cause) (s : State)
  | unanswered (k : LineNo) (s : State)
  deriving DecidableEq, Repr

/-- The loop `for k in …` of R84: write the lines in order, stop at the first that is not answered `ok` (R85). -/
def State.writeLines (p : Pattern) : List LineNo → State → BodyEnd
  | [], s => .stepped s
  | k :: ks, s =>
    match s.outWrite k (lineBit k p) with
    | (.answered .ok, s') => s'.writeLines p ks
    | (.answered (.fail c), s') => .writeFailed k c s'
    | (.silent, s') => .unanswered k s'

/-- The body of `STEP()` in R84: advance, look up the NEW cursor, write the four lines in wire order. -/
def State.stepBody (s : State) : BodyEnd :=
  s.advanceCursor.writeLines s.advanceCursor.pattern LineNo.all

/-- A command is presented: accepted only in `Idle` (R50, R106). While the block is busy the command is not
accepted and nothing happens (R147, log 11); before the first reset it is refused (R143, U18, log 10). -/
def State.accept (s : State) (effect : State → State) : Host.Outcome State Fault Refusal :=
  match s.ctrl with
  | .idle => .next (effect s)
  | .powerUp => .refused .commandBeforeReset
  | .write _ _ _ _ => .next s
  | .wait _ _ => .next s

/-- A request in flight is abandoned (R142): the line of a write not yet answered is left unspecified; a wait is
no longer awaited. The reply that request would have had is gone (log 13). -/
def State.abandonRequest (s : State) : State :=
  match s.ctrl with
  | .powerUp => s
  | .idle => s
  | .write k _ _ _ => (s.popReply k).disturbLine k
  | .wait _ _ => s.endWait

/-- Reset with this level on the strap (R140, R142): no event, no response, no line written. -/
def State.applyReset (strap : Bool) (s : State) : State :=
  { s.abandonRequest with cursor := 0#3, dir := .forward, hasDelay := strap, ctrl := .idle }

/-- Every line is *unwritten*, the replies to come are the platform's as before (R143). -/
def Outputs.powerUp (o : Outputs) : Outputs :=
  { out1 := { o.out1 with level := .unwritten }
    out2 := { o.out2 with level := .unwritten }
    out3 := { o.out3 with level := .unwritten }
    out4 := { o.out4 with level := .unwritten } }

/-- Power removed and restored (R143, R135): lines unwritten, every register unspecified until the first reset
(free values, log 10): the block keeps no state across power cycles. That the model's record of the trace goes on over
it, with the replies to come and the host's list, is the model's choice (log 24). -/
def State.applyPowerCycle (s : State) : State :=
  { s.abandonRequest with
    cursor := Config.powerUpCursor s.draws
    dir := Config.powerUpDir s.draws
    hasDelay := Config.powerUpHasDelay s.draws
    ctrl := .powerUp
    outs := s.abandonRequest.outs.powerUp
    draws := s.abandonRequest.draws + 1 }

end Sys2Proof.Machine
end

