-- ==== Sys2Proof/Machine/BoundedRun.lean ====
section
/-! DEFINITION. The bounded run: `STEP_FOR` (42_step_for R100 to R105). -/

namespace Sys2Proof.Machine

/-- The loop of R100 with this many steps still to do: a step, then a wait; the first failed write ends the run
(R104). A request that is never answered leaves the block in the `Write` or `Wait` state of R106. -/
def runLoop (m : DelayMs) : Nat → State → State
  | 0, s => s.respond .ok
  | n + 1, s =>
    match s.stepBody with
    | .writeFailed k c s' => s'.respond (.outputWriteFailed k c)
    | .unanswered k s' => { s' with ctrl := .write k (BitVec.ofNat 32 n) m true }
    | .stepped s' =>
      match s'.waits.head with
      | .done => runLoop m n (s'.requestWait m).endWait
      | .silent => { s'.requestWait m with ctrl := .wait (BitVec.ofNat 32 n) m }

/-- What `STEP_FOR count, delay_ms` does once accepted (R100): the check of `has_delay` comes before anything else,
also for `count` = 0 (R101). -/
def stepForEffect (count : Count) (delayMs : DelayMs) (s : State) : State :=
  if s.hasDelay then runLoop delayMs count.toNat s else s.respond .noDelayConfigured

/-- `STEP_FOR count, delay_ms` (R100). -/
def execStepFor (count : Count) (delayMs : DelayMs) (s : State) : Host.Outcome State Fault Refusal :=
  s.accept (stepForEffect count delayMs)

end Sys2Proof.Machine
end

