-- ==== Sys2Proof/Machine/CursorFsm.lean ====
section
/-! DEFINITION. `step_cursor_fsm`: `SET_DIR` and `STEP` (41_cursor_fsm R82, R84, R85). -/

namespace Sys2Proof.Machine

/-- What `SET_DIR d` does once accepted (R82). -/
def setDirEffect (d : Direction) (s : State) : State := (s.writeDir d).respond .ok

/-- `SET_DIR d` (R82). -/
def execSetDir (d : Direction) (s : State) : Host.Outcome State Fault Refusal := s.accept (setDirEffect d)

/-- What `STEP` does once accepted (R84, R85). With a write that is never answered the block stays in
`Write(k, 0, 0, 0)` of R106. -/
def stepEffect (s : State) : State :=
  match s.stepBody with
  | .stepped s' => s'.respond .ok
  | .writeFailed k c s' => s'.respond (.outputWriteFailed k c)
  | .unanswered k s' => { s' with ctrl := .write k 0 0 false }

/-- `STEP` (R84). -/
def execStep (s : State) : Host.Outcome State Fault Refusal := s.accept stepEffect

end Sys2Proof.Machine
end

