-- ==== Sys2Proof/Machine/Reserved.lean ====
section
/-! DEFINITION. The reserved opcode: the pseudo-command `ILLEGAL` (30_encoding R55, 60_exceptions R124). -/

namespace Sys2Proof.Machine

/-- What a word with the reserved opcode does once accepted (R55 (a), R124): one response, nothing else. -/
def illegalEffect (s : State) : State := s.respond .illegalCommand

/-- `ILLEGAL` (R55). -/
def execIllegal (s : State) : Host.Outcome State Fault Refusal := s.accept illegalEffect

end Sys2Proof.Machine
end

