-- ==== Sys2Proof/Machine/Dispatch.lean ====
section
/-! DEFINITION. One arm per command. -/

namespace Sys2Proof.Machine

/-- The meaning of a command. -/
def exec (i : Instr) (s : State) : Host.Outcome State Fault Refusal :=
  match i with
  | .setDir d => Sys2Proof.Machine.execSetDir d s
  | .step => Sys2Proof.Machine.execStep s
  | .stepFor count delayMs => Sys2Proof.Machine.execStepFor count delayMs s
  | .illegal => Sys2Proof.Machine.execIllegal s

end Sys2Proof.Machine
end

