-- ==== Sys2Proof/Machine/SmallStep.lean ====
section
/-! DEFINITION. The small-step machine of 42_step_for R106: one transition per event. The busy states of the
machine move by it; that it does for a whole command what the meanings do is an obligation. -/

namespace Sys2Proof.Machine

/-- The rows of R106 that leave `Idle` by accepting a command. -/
def begin (i : Instr) (s : State) : State :=
  match i with
  | .setDir d => (s.writeDir d).respond .ok
  | .illegal => s.respond .illegalCommand
  | .step => { s.advanceCursor with ctrl := .write .one 0 0 false }
  | .stepFor count m =>
    if s.hasDelay then
      if count = 0 then s.respond .ok
      else { s.advanceCursor with ctrl := .write .one (count - 1) m true }
    else s.respond .noDelayConfigured

/-- The rows of R106 that leave `Write(k, rem, m, run)`; none while the write is not answered. -/
def tickWrite (k : LineNo) (rem : Count) (m : DelayMs) (run : Bool) (s : State) : Option State :=
  match s.outWrite k (lineBit k s.pattern) with
  | (.silent, _) => none
  | (.answered (.fail c), s') => some (s'.respond (.outputWriteFailed k c))
  | (.answered .ok, s') =>
    match k.next? with
    | some k' => some { s' with ctrl := .write k' rem m run }
    | none => if run then some { s'.requestWait m with ctrl := .wait rem m } else some (s'.respond .ok)

/-- The rows of R106 that leave `Wait(rem, m)`; none while the wait has not ended. -/
def tickWait (rem : Count) (m : DelayMs) (s : State) : Option State :=
  match s.waits.head with
  | .silent => none
  | .done =>
    if rem = 0 then some (s.endWait.respond .ok)
    else some { s.endWait.advanceCursor with ctrl := .write .one (rem - 1) m true }

/-- One transition of a busy block (R106); none where R106 has none. Between power-up and the first reset none is
made: the model's choice (log 23). -/
def tick (s : State) : Option State :=
  match s.ctrl with
  | .powerUp => none
  | .idle => none
  | .write k rem m run => tickWrite k rem m run s
  | .wait rem m => tickWait rem m s

/-- At most `n` transitions, stopping where there is none. -/
def ticks : Nat → State → State
  | 0, s => s
  | n + 1, s =>
    match tick s with
    | none => s
    | some s' => ticks n s'

end Sys2Proof.Machine
end

