-- ==== Sys2Proof/Machine/Fetch.lean ====
section
/-! DEFINITION. What happens next to the block: reset and power first, then the command in progress, then the
next command of the host (30_encoding R50, 42_step_for R106, 70_reset R140 to R143, R147). -/

namespace Sys2Proof.Machine

/-- What a step finds to do. -/
inductive Fetched where
  /-- This command word is taken from the host; the state is the one it executes in. -/
  | command (w : CmdWord) (s : State)
  /-- Something other than a command happens, and this is the state after it. -/
  | event (s : State)
  /-- A request is never answered and no reset comes (R107, U10). -/
  | stuck
  deriving DecidableEq, Repr

/-- The next thing to happen. A reset or a power cycle wins in every control state (R106 last row, D21, log 13); a
busy block moves by `tick` and takes no command (R147); an idle block takes the next command, and holds its state
while there is none (R135, log 9). Between power-up and the first reset the block does nothing by itself: that it
holds its state there is the model's choice (log 23), since R143 leaves its run state unspecified. -/
def fetch (s : State) : Fetched :=
  match s.host with
  | .reset strap :: later => .event (State.applyReset strap { s with host := later })
  | .powerCycle :: later => .event (State.applyPowerCycle { s with host := later })
  | [] =>
    match s.ctrl with
    | .powerUp => .event s
    | .idle => .event s
    | .write _ _ _ _ => (tick s).elim .stuck .event
    | .wait _ _ => (tick s).elim .stuck .event
  | .command w :: later =>
    match s.ctrl with
    | .powerUp => .command w { s with host := later }
    | .idle => .command w { s with host := later }
    | .write _ _ _ _ => (tick s).elim .stuck .event
    | .wait _ _ => (tick s).elim .stuck .event

end Sys2Proof.Machine
end

