-- ==== Sys2Proof/Machine/Step.lean ====
section
/-! DEFINITION. One step of the machine. -/

namespace Sys2Proof.Machine

/-- One step: the next command as a whole (R84, R100: the normative reading, D1), or one event of another kind. -/
def step (s : State) : Host.Outcome State Fault Refusal :=
  match fetch s with
  | .command w s' => exec (decode w) s'
  | .event s' => .next s'
  | .stuck => .fault .unansweredRequest

/-- `s` with the word `w` as the host's next command, and the block idle so that it is taken at once (log 9). -/
def State.withFetchWord (s : State) (nbits w : Nat) : State :=
  { s with host := .command (BitVec.ofNat 66 (w % 2 ^ nbits)) :: s.host, ctrl := .idle }

end Sys2Proof.Machine
end

