-- ==== Sys2Proof/Machine/Ports.lean ====
section
/-! DEFINITION. The response word (30_encoding R56) and the ports of the block as a view of its state (R51, log
22); the hidden run state of 10_state R16 under the spec's names. -/

namespace Sys2Proof.Machine

/-- Field `status` of a response (R56, R121). -/
def Response.status : Response → BitVec 2
  | .ok => 0b00#2
  | .outputWriteFailed _ _ => 0b01#2
  | .noDelayConfigured => 0b10#2
  | .illegalCommand => 0b11#2

/-- Field `line` of a response: the line whose write failed, else 0 (R56). -/
def Response.lineField : Response → BitVec 3
  | .ok => 0#3
  | .outputWriteFailed k _ => BitVec.ofNat 3 k.num
  | .noDelayConfigured => 0#3
  | .illegalCommand => 0#3

/-- Field `cause` of a response: copied from the capability, else 0 (R56, R122). -/
def Response.causeField : Response → Cause
  | .ok => 0#8
  | .outputWriteFailed _ c => c
  | .noDelayConfigured => 0#8
  | .illegalCommand => 0#8

/-- The 13-bit response word: `status` 12:11, `line` 10:8, `cause` 7:0 (R56). -/
def Response.word (r : Response) : RspWord := r.status ++ (r.lineField ++ r.causeField)

/-- `busy` of R16: not `Idle` (R106); between power-up and the first reset a free value (R143, log 10). -/
def State.busy (s : State) : Bool :=
  match s.ctrl with
  | .powerUp => Config.powerUpBusy s.draws
  | .idle => false
  | .write _ _ _ _ => true
  | .wait _ _ => true

/-- An unspecified value in this state: a free value for each count of draws and of events so far, so that nothing
ties it to the value before the last response (log 7). -/
def State.unspecified {α : Type} (free : Nat → Nat → α) (s : State) : α := free s.draws s.trace.length

/-- `wire` of R16: 1 to 4 while a write of a step comes next. While a wait runs, after a response, after reset and
before the first reset it is unspecified (R16, R19, R143, U3): a free value (log 7). -/
def State.wire (s : State) : BitVec 3 :=
  match s.ctrl with
  | .write k _ _ _ => BitVec.ofNat 3 k.num
  | .powerUp => s.unspecified Config.unspecifiedWire
  | .idle => s.unspecified Config.unspecifiedWire
  | .wait _ _ => s.unspecified Config.unspecifiedWire

/-- `run_remaining` of R16 while a `STEP_FOR` runs: the steps still to do, the one being made included. Outside one it
is unspecified (R16, R19, R143, U3): a free value (log 7). -/
def State.runRemaining (s : State) : Count :=
  match s.ctrl with
  | .write _ rem _ true => rem + 1
  | .write _ _ _ false => s.unspecified Config.unspecifiedRunRemaining
  | .wait rem _ => rem
  | .powerUp => s.unspecified Config.unspecifiedRunRemaining
  | .idle => s.unspecified Config.unspecifiedRunRemaining

/-- `run_delay` of R16 while a `STEP_FOR` runs. Outside one it is unspecified (R16, R19, R143, U3): a free value (log
7). -/
def State.runDelay (s : State) : DelayMs :=
  match s.ctrl with
  | .write _ _ m true => m
  | .write _ _ _ false => s.unspecified Config.unspecifiedRunDelay
  | .wait _ m => m
  | .powerUp => s.unspecified Config.unspecifiedRunDelay
  | .idle => s.unspecified Config.unspecifiedRunDelay

/-- Port `cmd_ready`: "equals not `busy`" (R51). -/
def State.cmdReady (s : State) : Bool := !s.busy

/-- Port `out_req[4:1]`, bit `k - 1` here is `out_req[k]`: one-hot while a write is requested (R51). Between
power-up and the first reset it is a free value (R143, log 10), to which nothing answers (log 23). -/
def State.outReq (s : State) : BitVec 4 :=
  match s.ctrl with
  | .write k _ _ _ => BitVec.ofNat 4 (2 ^ (k.num - 1))
  | .powerUp => Config.powerUpOutReq s.draws
  | .idle => 0#4
  | .wait _ _ => 0#4

/-- Port `out_level`: while a write is requested, the level of that line in the pattern the cursor names (R51, R106);
a free value otherwise (log 22). -/
def State.outLevel (s : State) : BitVec 1 :=
  match s.ctrl with
  | .write k _ _ _ => levelBit (lineBit k s.pattern)
  | .powerUp => s.unspecified Config.unspecifiedOutLevel
  | .idle => s.unspecified Config.unspecifiedOutLevel
  | .wait _ _ => s.unspecified Config.unspecifiedOutLevel

/-- Port `dly_req` (R51, R109). Between power-up and the first reset it is a free value (R143, log 10), to which
nothing answers (log 23). -/
def State.dlyReq (s : State) : Bool :=
  match s.ctrl with
  | .wait _ _ => true
  | .powerUp => Config.powerUpDlyReq s.draws
  | .idle => false
  | .write _ _ _ _ => false

/-- Port `dly_ms`: while a wait is requested, its milliseconds (R51, R54); a free value otherwise (log 22). -/
def State.dlyMs (s : State) : DelayMs :=
  match s.ctrl with
  | .wait _ m => m
  | .powerUp => s.unspecified Config.unspecifiedDlyMs
  | .idle => s.unspecified Config.unspecifiedDlyMs
  | .write _ _ _ _ => s.unspecified Config.unspecifiedDlyMs

/-- Port `rsp` in the moment of `rsp_valid`: the word of the response the trace ends with, if it ends with one
(R51, R56). -/
def State.rsp (s : State) : Option RspWord :=
  match s.trace.getLast? with
  | some (.rsp r) => some r.word
  | some (.write _ _ _) => none
  | some (.delay _) => none
  | none => none

/-- What the input ports `out_ack`, `out_err`, `out_cause` say to a write request (R51). -/
def WriteReply.ofPorts (ack err : Bool) (cause : Cause) : WriteReply :=
  if ack then .answered (if err then .fail cause else .ok) else .silent

/-- What the input port `dly_done` says to a wait request (R51). -/
def WaitReply.ofPort (done : Bool) : WaitReply := if done then .done else .silent

end Sys2Proof.Machine
end

