-- ==== Sys2Proof/Safety.lean ====
section
/-! DEFINITION. The terms claims about the block use: what the environment answers, what a step and a run leave on
the lines and in the trace, and the invariant of a command in progress. -/

open Sys2Proof.Machine in
/-- The responses R121 lets each command return. -/
def Sys2Proof.Instr.MayReturn : Sys2Proof.Instr → Response → Prop
  | .setDir _, r => r = .ok
  | .step, r => r = .ok ∨ ∃ k c, r = .outputWriteFailed k c
  | .stepFor _ _, r => r = .ok ∨ (∃ k c, r = .outputWriteFailed k c) ∨ r = .noDelayConfigured
  | .illegal, r => r = .illegalCommand

namespace Sys2Proof.Machine

/-- The events of a step whose four writes are answered ok (95_test_vectors `B(a)`, R84). -/
def batch (p : Pattern) : List Event := LineNo.all.map fun k => .write k (lineBit k p) .ok

/-- The writes answered ok before line `k` is reached (R85, R104). -/
def batchBefore (k : LineNo) (p : Pattern) : List Event :=
  (LineNo.all.take (k.num - 1)).map fun j => .write j (lineBit j p) .ok

/-- An output capability after a write of this level answered ok. -/
def OutputCap.written (v : Level) (c : OutputCap) : OutputCap :=
  { level := .driven v, replies := c.replies.pop }

/-- The output capabilities after a whole pattern was written ok. -/
def Outputs.written (p : Pattern) (o : Outputs) : Outputs :=
  { out1 := o.out1.written (lineBit .one p)
    out2 := o.out2.written (lineBit .two p)
    out3 := o.out3.written (lineBit .three p)
    out4 := o.out4.written (lineBit .four p) }

/-- The next write to every line will be answered ok. -/
def State.AllWritesOk (s : State) : Prop := ∀ k, s.writeReply k = .answered .ok

/-- Of the next step's writes, those before line `k` will be answered ok and the one to `k` gets this reply. -/
def State.FirstNotOk (s : State) (k : LineNo) (r : WriteReply) : Prop :=
  (∀ j, j.num < k.num → s.writeReply j = .answered .ok) ∧ s.writeReply k = r

/-- The next `n` writes to every line will be answered ok. -/
def State.WritesOk (s : State) (n : Nat) : Prop :=
  ∀ k i, i < n → (s.outs.get k).replies.nth i = .answered .ok

/-- The next `n` writes to every line will be answered ok and the next `n` waits will end. -/
def State.RunOk (s : State) (n : Nat) : Prop :=
  s.WritesOk n ∧ ∀ i, i < n → s.waits.nth i = .done

/-- After `n` whole steps, the next step's writes before line `k` will be answered ok and the one to `k` gets this
reply. -/
def State.FirstNotOkAfter (s : State) (n : Nat) (k : LineNo) (r : WriteReply) : Prop :=
  (∀ j, j.num < k.num → (s.outs.get j).replies.nth n = .answered .ok) ∧ (s.outs.get k).replies.nth n = r

/-- No request is ever left unanswered (R107, the fairness assumption). -/
def State.Fair (s : State) : Prop :=
  (∀ k i, (s.outs.get k).replies.nth i ≠ .silent) ∧ ∀ i, s.waits.nth i ≠ .silent

/-- The cursor after `n` steps in this direction: `(c + n) mod 8` or `(c - n) mod 8` (R81, R105). -/
def movedBy (c : Cursor) (d : Direction) (n : Nat) : Cursor :=
  match d with
  | .forward => c + BitVec.ofNat 3 n
  | .reverse => c - BitVec.ofNat 3 n

/-- The events of `n` whole steps of a run, each with its wait (R100, R105). -/
def runEvents (rom : Rom) (d : Direction) (m : DelayMs) (c : Cursor) : Nat → List Event
  | 0 => []
  | n + 1 =>
    batch (patternAt rom (advance c d).toNat) ++ (.delay m :: runEvents rom d m (advance c d) n)

/-- The events of `n` `STEP` commands, every write answered ok (R86, R87). -/
def stepsEvents (rom : Rom) (d : Direction) (c : Cursor) (n : Nat) : List Event :=
  (List.range n).flatMap fun j => batch (patternAt rom (movedBy c d (j + 1)).toNat) ++ [.rsp .ok]

/-- Commands executed one after another, each from the state the one before it left. -/
def execAll : List Instr → State → Host.Outcome State Fault Refusal
  | [], s => .next s
  | i :: is, s =>
    match exec i s with
    | .next t => execAll is t
    | .fault f => .fault f
    | .refused r => .refused r

/-- The manual loop of R108: up to `n` `STEP` commands, up to and including the first that does not return OK. -/
def manualLoop : Nat → State → State
  | 0, s => s
  | n + 1, s =>
    if (stepEffect s).ctrl = .idle ∧ (stepEffect s).trace.getLast? = some (.rsp .ok) then manualLoop n (stepEffect s)
    else stepEffect s

/-- `W` events (R9). -/
def Event.isWrite : Event → Bool
  | .write _ _ _ => true
  | .delay _ => false
  | .rsp _ => false

/-- `D` events (R9). -/
def Event.isDelay : Event → Bool
  | .delay _ => true
  | .write _ _ _ => false
  | .rsp _ => false

/-- `Rsp` events (R9). -/
def Event.isRsp : Event → Bool
  | .rsp _ => true
  | .write _ _ _ => false
  | .delay _ => false

/-- The four lines show the pattern the cursor names (R18 (d)). -/
def State.LinesShowPattern (s : State) : Prop := ∀ k, s.line k = .driven (lineBit k s.pattern)

/-- The state once the write to line `k` of the cursor's pattern is answered ok, before the block moves on (R8, R106):
the level on the line, the reply used up, the event in the trace. -/
def State.wroteOk (s : State) (k : LineNo) : State :=
  { s with
    outs := s.outs.set k ((s.outs.get k).written (lineBit k s.pattern))
    trace := s.trace ++ [.write k (lineBit k s.pattern) .ok] }

/-- The block is making a write or a wait of a command in progress. -/
def State.InCommand (s : State) : Prop :=
  (∃ k rem m run, s.ctrl = .write k rem m run) ∨ ∃ rem m, s.ctrl = .wait rem m

/-- The invariant of a command in progress (R106 with R84, R100, R18): the lines already written show the cursor's
pattern, all four while waiting; and a run is in progress only with a delay capability. -/
def State.RunInv (s : State) : Prop :=
  match s.ctrl with
  | .powerUp => True
  | .idle => True
  | .write k _ _ run =>
    (∀ j, j.num < k.num → s.line j = .driven (lineBit j s.pattern)) ∧ (run = true → s.hasDelay = true)
  | .wait _ _ => s.LinesShowPattern ∧ s.hasDelay = true

/-- The reply of no line but those listed is used up, and no line but those listed changes. -/
def State.OtherLinesSame (s t : State) (touched : LineNo → Prop) : Prop :=
  ∀ k, ¬ touched k → t.outs.get k = s.outs.get k

/-- Two states that differ at most in the levels the four lines hold. -/
def State.SameButLevels (s u : State) : Prop :=
  u.cursor = s.cursor ∧ u.dir = s.dir ∧ u.hasDelay = s.hasDelay ∧ u.ctrl = s.ctrl ∧ u.rom = s.rom ∧
    u.waits = s.waits ∧ u.host = s.host ∧ u.trace = s.trace ∧ u.draws = s.draws ∧
    ∀ k, (u.outs.get k).replies = (s.outs.get k).replies

/-- A failed or abandoned write leaves the line HIGH, LOW or as it was (R15). -/
def LineUnspecified (before after : LineLevel) : Prop :=
  after = before ∨ ∃ v, after = .driven v

end Sys2Proof.Machine
end

