-- ==== Sys2Proof/Certificates/Slice0/Obligations.lean ====
section
/-! DEFINITION. What is claimed of the model: the rules of spec/ it must obey. -/

open Sys2Proof Sys2Proof.Machine

/-- R19: what reset leaves; resetting the reset state with either strap latches that strap and changes nothing
else. The table and the environment's replies of `State.reset` are the model's choices (logs 2, 4) and nothing is
said of them, nor of `wire`, `run_remaining` and `run_delay`, which R19 leaves unspecified (log 7). -/
def Obligations.ResetStateIsAsSpecified : Prop :=
  State.reset.cursor = 0#3 ∧ State.reset.dir = .forward ∧ State.reset.ctrl = .idle ∧ State.reset.busy = false ∧
    (∀ k, State.reset.line k = .unwritten) ∧ State.reset.trace = [] ∧
    ∀ strap, step { State.reset with host := [.reset strap] } = .next { State.reset with hasDelay := strap }

/-- R140, R142: a reset wins in every state, whatever command is in progress. Registers as R140 says, no event, no
response; only the line of a write in flight is touched, and that one is left HIGH, LOW or as it was. -/
def Obligations.ResetFromAnyState : Prop :=
  ∀ (s : State) (strap : Bool) (later : List HostEvent), s.host = .reset strap :: later →
    ∃ t, step s = .next t ∧ t.cursor = 0#3 ∧ t.dir = .forward ∧ t.hasDelay = strap ∧ t.ctrl = .idle ∧
      t.busy = false ∧ t.trace = s.trace ∧ t.rom = s.rom ∧ t.host = later ∧
      s.OtherLinesSame t (fun k => ∃ rem m run, s.ctrl = .write k rem m run) ∧
      (∀ k rem m run, s.ctrl = .write k rem m run → LineUnspecified (s.line k) (t.line k)) ∧
      ((∀ rem m, s.ctrl ≠ .wait rem m) → t.waits = s.waits)

/-- R141: reset is silent and repeatable, the lines do not change when the block is idle, and the first step after
it applies entry 1, or entry 7 after `SET_DIR` Reverse, never entry 0. -/
def Obligations.ResetSilentAndRepeatable : Prop :=
  ∀ (s : State) (strap : Bool),
    (s.applyReset strap).applyReset strap = s.applyReset strap ∧ (s.applyReset strap).trace = s.trace ∧
    (s.ctrl = .idle → (s.applyReset strap).outs = s.outs) ∧ (s.applyReset strap).pattern = romEntry s.rom 0#3 ∧
    ((s.applyReset strap).AllWritesOk →
      (∃ t, exec .step (s.applyReset strap) = .next t ∧
        t.trace = s.trace ++ batch (romEntry s.rom 1#3) ++ [.rsp .ok]) ∧
      ∃ t, execAll [.setDir .reverse, .step] (s.applyReset strap) = .next t ∧
        t.trace = s.trace ++ [.rsp .ok] ++ batch (romEntry s.rom 7#3) ++ [.rsp .ok])

/-- R143, U18: a power cycle leaves the lines unwritten and makes no event; no command executes until a reset
comes, and that reset makes the cursor 0. That a command is refused there is the spec's U18 (log 10); that the record
of the trace and the host's list go on over the power cycle is the model's choice (log 24). -/
def Obligations.PowerUpNeedsReset : Prop :=
  ∀ (s : State) (later : List HostEvent), s.host = .powerCycle :: later →
    ∃ t, step s = .next t ∧ t.ctrl = .powerUp ∧ (∀ k, t.line k = .unwritten) ∧ t.trace = s.trace ∧
      t.rom = s.rom ∧ t.host = later ∧ (∀ i, exec i t = .refused .commandBeforeReset) ∧
      ∀ strap after, later = .reset strap :: after →
        ∃ u, step t = .next u ∧ u.cursor = 0#3 ∧ u.dir = .forward ∧ u.hasDelay = strap ∧ u.ctrl = .idle ∧
          ∀ k, u.line k = .unwritten

/-- R82: `SET_DIR` writes `dir`, answers OK and changes nothing else, for both values of `d`; the last of several
wins; after reset, Reverse then `STEP` moves the cursor from 0 to 7. R82 also says that it cannot be accepted while a
run is in progress: that `exec` of it in a busy state answers the same state is the model's form of that (log 11). -/
def Obligations.SetDirResult : Prop :=
  (∀ (s : State) (d : Direction), s.ctrl = .idle →
    exec (.setDir d) s = .next { s with dir := d, trace := s.trace ++ [.rsp .ok] }) ∧
  (∀ (s : State) (d e : Direction), s.ctrl = .idle →
    execAll [.setDir d, .setDir e] s = .next { s with dir := e, trace := s.trace ++ [.rsp .ok, .rsp .ok] }) ∧
  (∀ (s : State) (d : Direction), s.InCommand → exec (.setDir d) s = .next s) ∧
  ∀ (s : State), s.ctrl = .idle → s.cursor = 0#3 →
    ∃ t, execAll [.setDir .reverse, .step] s = .next t ∧ t.cursor = 7#3 ∧ t.dir = .reverse

/-- R84: the cursor moves by one and the NEW entry is written to lines 1, 2, 3, 4 in that order, each once whatever
the line held; everything else is unchanged. The first write that fails is the response; the delay capability plays
no part. -/
def Obligations.StepResult : Prop :=
  (∀ s : State, s.ctrl = .idle → s.AllWritesOk →
    exec .step s = .next
      { s with
        cursor := advance s.cursor s.dir
        outs := s.outs.written (patternAt s.rom (advance s.cursor s.dir).toNat)
        trace := s.trace ++ batch (patternAt s.rom (advance s.cursor s.dir).toNat) ++ [.rsp .ok] }) ∧
  (∀ (s : State) (k : LineNo) (c : Cause), s.ctrl = .idle → s.FirstNotOk k (.answered (.fail c)) →
    ∃ t, exec .step s = .next t ∧ t.cursor = advance s.cursor s.dir ∧ t.dir = s.dir ∧
      t.trace = s.trace ++ batchBefore k t.pattern ++
        [.write k (lineBit k t.pattern) (.fail c), .rsp (.outputWriteFailed k c)]) ∧
  ∀ (s : State) (h : Bool), s.ctrl = .idle →
    ∃ t, exec .step s = .next t ∧ exec .step { s with hasDelay := h } = .next { t with hasDelay := h }

/-- R85: the first failed write ends the step: earlier lines hold the new levels, line `k` is unspecified, later
lines are not asked, the advance is kept, and the response names the line and the cause; the block is idle. -/
def Obligations.StepFirstFailure : Prop :=
  ∀ (s : State) (k : LineNo) (c : Cause), s.ctrl = .idle → s.FirstNotOk k (.answered (.fail c)) →
    ∃ t, exec .step s = .next t ∧ t.cursor = advance s.cursor s.dir ∧ t.dir = s.dir ∧
      t.hasDelay = s.hasDelay ∧ t.ctrl = .idle ∧ t.rom = s.rom ∧ t.waits = s.waits ∧ t.host = s.host ∧
      (∀ j, j.num < k.num → t.outs.get j = (s.outs.get j).written (lineBit j t.pattern)) ∧
      LineUnspecified (s.line k) (t.line k) ∧ s.OtherLinesSame t (fun j => j.num ≤ k.num) ∧
      t.trace = s.trace ++ batchBefore k t.pattern ++
        [.write k (lineBit k t.pattern) (.fail c), .rsp (.outputWriteFailed k c)]

/-- R106, R107: a write that is never answered leaves the block busy in `Write(k, 0, 0, 0)` with no response, the
lines before `k` written and the others as they were. -/
def Obligations.StepUnansweredStaysBusy : Prop :=
  ∀ (s : State) (k : LineNo), s.ctrl = .idle → s.FirstNotOk k .silent →
    ∃ t, exec .step s = .next t ∧ t.ctrl = .write k 0 0 false ∧ t.cursor = advance s.cursor s.dir ∧
      t.dir = s.dir ∧ t.hasDelay = s.hasDelay ∧ t.rom = s.rom ∧ t.waits = s.waits ∧
      (∀ j, j.num < k.num → t.outs.get j = (s.outs.get j).written (lineBit j t.pattern)) ∧
      s.OtherLinesSame t (fun j => j.num < k.num) ∧ t.trace = s.trace ++ batchBefore k t.pattern

/-- R15, R34 (d): "the block keeps no copy and never reads a line back": whatever levels the lines hold, a step does
the same to everything but those levels. -/
def Obligations.LinesAreNeverReadBack : Prop :=
  ∀ s u t : State, s.SameButLevels u → step s = .next t → ∃ v, step u = .next v ∧ t.SameButLevels v

/-- R101, R123: without a delay capability `STEP_FOR` answers NoDelayConfigured for every count, 0 included, and
changes nothing. -/
def Obligations.StepForWithoutDelay : Prop :=
  ∀ (s : State) (count : Count) (m : DelayMs), s.ctrl = .idle → s.hasDelay = false →
    exec (.stepFor count m) s = .next { s with trace := s.trace ++ [.rsp .noDelayConfigured] }

/-- R102: a run of no steps answers OK and touches nothing. -/
def Obligations.StepForZeroSteps : Prop :=
  ∀ (s : State) (m : DelayMs), s.ctrl = .idle → s.hasDelay = true →
    exec (.stepFor 0 m) s = .next { s with trace := s.trace ++ [.rsp .ok] }

/-- R105: a successful run moves the cursor by `count` in the direction, leaves the lines on the cursor's entry and
makes `4 * count` writes, `count` waits of `m` (one after each step) and one response. -/
def Obligations.StepForSuccess : Prop :=
  ∀ (s : State) (count : Count) (m : DelayMs), s.ctrl = .idle → s.hasDelay = true → s.RunOk count.toNat →
    ∃ t, exec (.stepFor count m) s = .next t ∧ t.cursor = movedBy s.cursor s.dir count.toNat ∧ t.dir = s.dir ∧
      t.hasDelay = true ∧ t.ctrl = .idle ∧ t.rom = s.rom ∧ t.host = s.host ∧
      (count ≠ 0 → t.LinesShowPattern) ∧ (count = 0 → t.outs = s.outs) ∧
      t.trace = s.trace ++ runEvents s.rom s.dir m s.cursor count.toNat ++ [.rsp .ok] ∧
      (runEvents s.rom s.dir m s.cursor count.toNat).countP Event.isWrite = 4 * count.toNat ∧
      (runEvents s.rom s.dir m s.cursor count.toNat).count (.delay m) = count.toNat ∧
      (runEvents s.rom s.dir m s.cursor count.toNat).length = 5 * count.toNat

/-- R104: the first failed write of a run ends it: the whole steps and waits before it, the failing step's writes,
one response and no wait after it; the cursor keeps every advance made. -/
def Obligations.StepForAbortsAtFailure : Prop :=
  ∀ (s : State) (count : Count) (m : DelayMs) (n : Nat) (k : LineNo) (c : Cause), s.ctrl = .idle →
    s.hasDelay = true → n < count.toNat → s.RunOk n → s.FirstNotOkAfter n k (.answered (.fail c)) →
    ∃ t, exec (.stepFor count m) s = .next t ∧ t.cursor = movedBy s.cursor s.dir (n + 1) ∧ t.dir = s.dir ∧
      t.hasDelay = true ∧ t.ctrl = .idle ∧ t.rom = s.rom ∧ t.host = s.host ∧
      (∀ j, j.num < k.num → t.line j = .driven (lineBit j t.pattern)) ∧
      (0 < n → LineUnspecified (.driven (lineBit k (patternAt s.rom (movedBy s.cursor s.dir n).toNat))) (t.line k) ∧
        ∀ j, k.num < j.num →
          t.line j = .driven (lineBit j (patternAt s.rom (movedBy s.cursor s.dir n).toNat))) ∧
      (n = 0 → LineUnspecified (s.line k) (t.line k) ∧ ∀ j, k.num < j.num → t.line j = s.line j) ∧
      t.trace = s.trace ++ runEvents s.rom s.dir m s.cursor n ++ batchBefore k t.pattern ++
        [.write k (lineBit k t.pattern) (.fail c), .rsp (.outputWriteFailed k c)]

/-- R106, R107: a run whose write or wait is never answered stays busy in the `Write` or `Wait` state of R106, with
the steps still to do and the delay it carries, and no response. -/
def Obligations.StepForUnansweredStaysBusy : Prop :=
  ∀ (s : State) (count : Count) (m : DelayMs) (n : Nat), s.ctrl = .idle → s.hasDelay = true →
    n < count.toNat → s.RunOk n →
    (∀ k, s.FirstNotOkAfter n k .silent →
      ∃ t, exec (.stepFor count m) s = .next t ∧ t.ctrl = .write k (count - 1 - BitVec.ofNat 32 n) m true ∧
        t.cursor = movedBy s.cursor s.dir (n + 1) ∧
        t.trace = s.trace ++ runEvents s.rom s.dir m s.cursor n ++ batchBefore k t.pattern) ∧
    ((∀ k, (s.outs.get k).replies.nth n = .answered .ok) → s.waits.nth n = .silent →
      ∃ t, exec (.stepFor count m) s = .next t ∧ t.ctrl = .wait (count - 1 - BitVec.ofNat 32 n) m ∧
        t.cursor = movedBy s.cursor s.dir (n + 1) ∧ t.LinesShowPattern ∧
        t.trace = s.trace ++ runEvents s.rom s.dir m s.cursor (n + 1))

/-- R108: with every wait ended, `STEP_FOR count, m` and `count` `STEP` commands up to and including the first that
fails agree on the `W` events, the cursor, the direction and the lines. -/
def Obligations.RunEqualsManualLoop : Prop :=
  ∀ (s : State) (count : Count) (m : DelayMs), s.ctrl = .idle → s.hasDelay = true →
    (∀ i, i < count.toNat → s.waits.nth i = .done) →
    ∃ t, exec (.stepFor count m) s = .next t ∧
      t.trace.filter Event.isWrite = (manualLoop count.toNat s).trace.filter Event.isWrite ∧
      t.cursor = (manualLoop count.toNat s).cursor ∧ t.dir = (manualLoop count.toNat s).dir ∧
      t.outs = (manualLoop count.toNat s).outs

/-- R106: the small-step machine does for a whole command exactly what the command's meaning does, trace included;
where the command is left unanswered both stop in the same control state. -/
def Obligations.SmallStepsReachWholeCommand : Prop :=
  ∀ (i : Instr) (s : State), s.ctrl = .idle →
    ∃ (t : State) (n : Nat), exec i s = .next t ∧ ticks n (begin i s) = t ∧ tick t = none

/-- R107: with every request answered in the end, every command ends in a response and leaves the block idle. -/
def Obligations.FairCommandsRespond : Prop :=
  ∀ (i : Instr) (s : State), s.ctrl = .idle → s.Fair →
    ∃ t, exec i s = .next t ∧ t.ctrl = .idle ∧ t.Fair ∧ ∃ r, t.trace.getLast? = some (.rsp r)

/-- The invariant of a command in progress is kept by every step, from every state that has it. -/
def Obligations.StepKeepsRunInv : Prop :=
  ∀ s t : State, s.RunInv → step s = .next t → t.RunInv

/-- The invariant holds at reset, and a run can be in progress in a state that has it. -/
def Obligations.ResetHasRunInv : Prop :=
  State.reset.RunInv ∧
    ∃ (s : State) (k : LineNo) (rem : Count) (m : DelayMs),
      s.RunInv ∧ s.ctrl = .write k rem m true ∧ s.runRemaining = 2 ∧ s.runDelay = m

/-- The frame of every command: what it leaves unchanged whatever the answers are. -/
def Obligations.CommandFrames : Prop :=
  ∀ (i : Instr) (s t : State), exec i s = .next t →
    t.rom = s.rom ∧ t.hasDelay = s.hasDelay ∧ t.host = s.host ∧ (∃ es, t.trace = s.trace ++ es) ∧
    ((∀ d, i ≠ .setDir d) → t.dir = s.dir) ∧
    ((∀ count m, i ≠ .stepFor count m) → t.waits = s.waits) ∧
    (((∃ d, i = .setDir d) ∨ i = .illegal) → t.cursor = s.cursor ∧ t.outs = s.outs ∧ t.draws = s.draws)

/-- R11, R12, R31, R10, with R105 and R147: over every step of the machine, the table never changes; power-up and reset
aside, `has_delay` never does, `dir` only by a `SET_DIR` that a block with no command in progress takes, and the cursor
only by a `STEP` or `STEP_FOR` taken so, or by one step of a run whose wait has ended with steps left. -/
def Obligations.RegistersWrittenOnlyByTheirOwners : Prop :=
  ∀ s t : State, step s = .next t →
    t.rom = s.rom ∧
    ((∃ later, s.host = .powerCycle :: later) ∨
      (∃ strap later, s.host = .reset strap :: later ∧ t.hasDelay = strap ∧ t.dir = .forward ∧ t.cursor = 0#3) ∨
      (t.hasDelay = s.hasDelay ∧
        (t.dir = s.dir ∨
          ∃ w later, s.host = .command w :: later ∧ ¬ s.InCommand ∧ t.host = later ∧ decode w = .setDir t.dir) ∧
        (t.cursor = s.cursor ∨
          (∃ rem m, s.ctrl = .wait rem m ∧ rem ≠ 0 ∧ t.cursor = advance s.cursor s.dir) ∨
          ∃ w later, s.host = .command w :: later ∧ ¬ s.InCommand ∧ t.host = later ∧
            (decode w = .step ∨ ∃ c m, decode w = .stepFor c m))))

/-- R50, R56, R121: an accepted command that ends makes exactly one response, its last event, and one R121 allows
it; one that is left unanswered makes none. -/
def Obligations.OneResponsePerCommand : Prop :=
  ∀ (i : Instr) (s : State), s.ctrl = .idle →
    ∃ t es, exec i s = .next t ∧ (∀ e ∈ es, e.isRsp = false) ∧
      ((t.ctrl = .idle ∧ ∃ r, i.MayReturn r ∧ t.trace = s.trace ++ es ++ [.rsp r]) ∨
        (t.InCommand ∧ t.trace = s.trace ++ es))

/-- R89, R109: the writes of a command go four to a step, to lines 1 to 4 in order, and all the levels of its `j`-th
step come from the one table entry `j` further than the cursor; only a `STEP_FOR` requests waits, all of its own
`delay_ms`, and only with a delay capability. -/
def Obligations.EventsComeFromTableAndOperands : Prop :=
  ∀ (i : Instr) (s : State), s.ctrl = .idle →
    ∃ t es, exec i s = .next t ∧ t.trace = s.trace ++ es ∧
      (∀ n k v a, (es.filter Event.isWrite)[n]? = some (.write k v a) →
        k.num = n % 4 + 1 ∧ v = lineBit k (romEntry s.rom (movedBy s.cursor s.dir (n / 4 + 1)))) ∧
      ∀ ms, Event.delay ms ∈ es → s.hasDelay = true ∧ ∃ count, i = .stepFor count ms

/-- R18 (d): when a step or a run of at least one step answers OK the four lines show the pattern the cursor names;
a command that makes no step keeps that. -/
def Obligations.LinesShowCursorAfterOk : Prop :=
  ∀ (i : Instr) (s t : State), s.ctrl = .idle → exec i s = .next t → t.ctrl = .idle →
    t.trace.getLast? = some (.rsp .ok) →
    ((i = .step ∨ ∃ count m, i = .stepFor count m ∧ count ≠ 0) ∨ s.LinesShowPattern) → t.LinesShowPattern

/-- R81: the next-cursor function, its inverse and its n-fold application. -/
def Obligations.AdvanceIsPlusMinusOneModEight : Prop :=
  ∀ (c : Cursor) (n : Nat),
    (advance c .forward).toNat = (c.toNat + 1) % 8 ∧ (advance c .reverse).toNat = (c.toNat + 7) % 8 ∧
    advance (advance c .forward) .reverse = c ∧ advance (advance c .reverse) .forward = c ∧
    (∀ d, (fun x => advance x d)^[n] c = movedBy c d n) ∧ (∀ d, (fun x => advance x d)^[8] c = c) ∧
    (movedBy c .forward n).toNat = (c.toNat + n) % 8 ∧ ((movedBy c .reverse n).toNat : Int) = (c.toNat - n) % 8

/-- R71, R75: the lookup for every integer: `ROM[i mod 8]`, the low three bits of an unsigned index, period 8. -/
def Obligations.PatternAtIsCyclic : Prop :=
  ∀ (rom : Rom) (i j : Int),
    (∀ a : Cursor, i % 8 = (a.toNat : Int) → patternAt rom i = romEntry rom a) ∧ patternAt rom (i + 8) = patternAt rom i ∧
    (i % 8 = j % 8 → patternAt rom i = patternAt rom j) ∧ patternAt rom (-1) = romEntry rom 7#3 ∧
    ∀ (w : Nat) (v : BitVec w), patternAt rom v.toNat = romEntry rom (v.setWidth 3)

/-- R73, R74: the default table has the half-step shape, and in every table of that shape consecutive entries differ
in exactly one line. -/
def Obligations.HalfStepNeighboursDifferInOneLine : Prop :=
  halfStepWF Config.defaultTable = true ∧
    ∀ (rom : Rom) (i : Int), halfStepWF rom = true →
      highCount (patternAt rom i ^^^ patternAt rom (i + 1)) = 1

/-- R57: `decode` by the opcode and the operand slices; it is a left inverse of `encode` on every command, and
`encode` gives a word back exactly when its ignored bits are 0 and its opcode is not reserved. -/
def Obligations.DecodeEncodeAgree : Prop :=
  (∀ i : Instr, i.WellFormed = true → ∃ w, encode i = some w ∧ decode w = i) ∧
  (∀ w : CmdWord, encode (decode w) = some w ↔
    (opField w = 0b01#2 ∧ w.extractLsb' 1 63 = 0#63) ∨ (opField w = 0b10#2 ∧ w.extractLsb' 0 64 = 0#64) ∨
      opField w = 0b11#2) ∧
  ∀ w : CmdWord,
    (opField w = 0b01#2 → decode w = .setDir (if w.getLsbD 0 then .reverse else .forward)) ∧
    (opField w = 0b10#2 → decode w = .step) ∧
    (opField w = 0b11#2 → decode w = .stepFor (w.extractLsb' 32 32) (w.extractLsb' 0 32)) ∧
    (opField w = 0b00#2 → decode w = .illegal)

/-- R52, R53: words written out from the spec's table decode to their commands (95_test_vectors 2.1). -/
def Obligations.SpecWordsDecode : Prop :=
  decode 0x10000000000000000#66 = .setDir .forward ∧ decode 0x1ffffffffffffffff#66 = .setDir .reverse ∧
    decode 0x2deadbeef00c0ffee#66 = .step ∧ decode 0x30000006400000005#66 = .stepFor 100 5 ∧
    decode 0x0ffffffffffffffff#66 = .illegal

/-- R55, R124: every word with the reserved opcode is `ILLEGAL`, which answers IllegalCommand and changes nothing;
ignored bits have no effect. -/
def Obligations.ReservedOpcodeAndIgnoredBits : Prop :=
  (∀ w : CmdWord, decode w = .illegal ↔ opField w = 0b00#2) ∧
  (∀ s : State, s.ctrl = .idle →
    exec .illegal s = .next { s with trace := s.trace ++ [.rsp .illegalCommand] }) ∧
  ∀ v w : CmdWord, opField v = opField w →
    (opField v = 0b10#2 ∨ opField v = 0b00#2 ∨ (opField v = 0b01#2 ∧ v.getLsbD 0 = w.getLsbD 0)) →
    decode v = decode w

/-- R56: the fields of the response word; no two responses share a word; for a failed write `status` is 01, `line` is 1
to 4 and `cause` the capability's. -/
def Obligations.ResponseWordFields : Prop :=
  (∀ r : Response, r.word.extractLsb' 11 2 = r.status ∧ r.word.extractLsb' 8 3 = r.lineField ∧
    r.word.extractLsb' 0 8 = r.causeField) ∧
  (∀ r q : Response, r.word = q.word → r = q) ∧
  (∀ k c, (Response.outputWriteFailed k c).word.extractLsb' 11 2 = 0b01#2 ∧
    (Response.outputWriteFailed k c).word.extractLsb' 8 3 = BitVec.ofNat 3 k.num ∧
    (Response.outputWriteFailed k c).word.extractLsb' 0 8 = c ∧ 1 ≤ k.num ∧ k.num ≤ 4) ∧
  Response.ok.word = 0x0000#13 ∧ Response.noDelayConfigured.word = 0x1000#13 ∧
  Response.illegalCommand.word = 0x1800#13

/-- R50: a step of an idle block accepts the host's next word and executes the command it decodes to. That one step
executes the command as a whole (R84, R100, D1) is the model's reading (log 1), and the list the host's words come
from is the model's (log 9). -/
def Obligations.StepRunsDecodedCommand : Prop :=
  ∀ (s : State) (w : CmdWord) (later : List HostEvent), s.ctrl = .idle → s.host = .command w :: later →
    step s = exec (decode w) { s with host := later }

/-- R147: a busy block accepts no command, and one that is presented stays presented: no step takes it. That `exec`
of any command in a busy state answers the same state is the model's choice (log 11): `step` never asks it. -/
def Obligations.BusyBlockTakesNoCommand : Prop :=
  ∀ (s : State), s.InCommand →
    s.cmdReady = false ∧ (∀ i, exec i s = .next s) ∧
    ∀ w later t, s.host = .command w :: later → step s = .next t → t.host = s.host

/-- R107, U10: a write or a wait that is never answered, with no reset and no power cycle at the head of the host's
list, is where the machine is stuck; with an answer it moves on by the one transition of R106. The fault is the model's form of U10's `stuck` (log
3). A reset further down the list, behind a command that the busy block does not accept, does not come first: the
list is the model's, in the order the host acts (logs 9, 13). -/
def Obligations.UnansweredRequestIsStuck : Prop :=
  ∀ (s : State), s.InCommand → (∀ strap later, s.host ≠ .reset strap :: later) →
    (∀ later, s.host ≠ .powerCycle :: later) →
    step s = (tick s).elim (.fault .unansweredRequest) .next ∧
    (step s = .fault .unansweredRequest ↔
      (∃ k rem m run, s.ctrl = .write k rem m run ∧ s.writeReply k = .silent) ∨
        ∃ rem m, s.ctrl = .wait rem m ∧ s.waits.head = .silent)

/-- An idle block with no command holds its state (R135). That such a step is a next state, not a stop, is the
model's choice (log 9). -/
def Obligations.IdleBlockHoldsItsState : Prop :=
  ∀ s : State, s.ctrl = .idle → s.host = [] → step s = .next s

/-- R88: `STEP`, the opposite direction, `STEP` brings the cursor back and applies the entry it named at first. -/
def Obligations.ReversalComesBack : Prop :=
  ∀ (s : State) (e : Direction), s.ctrl = .idle → e ≠ s.dir → s.WritesOk 2 →
    ∃ t, execAll [.step, .setDir e, .step] s = .next t ∧ t.cursor = s.cursor ∧ t.dir = e ∧
      t.LinesShowPattern ∧ (s.LinesShowPattern → ∀ k, t.line k = s.line k) ∧
      t.trace = s.trace ++ batch (patternAt s.rom (advance s.cursor s.dir).toNat) ++ [.rsp .ok, .rsp .ok] ++
        batch s.pattern ++ [.rsp .ok]

/-- R86, R87: `n` `STEP` commands from any cursor in either direction apply, in order, the entries one further each
time, and leave the cursor moved by `n`; from cursor 0 the j-th applies entry `j mod 8` or `(8 - j mod 8) mod 8`. -/
def Obligations.StepsWalkTheTable : Prop :=
  (∀ (n : Nat) (s : State), s.ctrl = .idle → s.WritesOk n →
    ∃ t, execAll (List.replicate n .step) s = .next t ∧ t.cursor = movedBy s.cursor s.dir n ∧ t.dir = s.dir ∧
      t.ctrl = .idle ∧ t.trace = s.trace ++ stepsEvents s.rom s.dir s.cursor n) ∧
  ∀ j : Nat, (movedBy 0#3 .forward j).toNat = j % 8 ∧ (movedBy 0#3 .reverse j).toNat = (8 - j % 8) % 8

/-- R51, R109, R16: the ports and the run state of a state that has the invariant: `cmd_ready` exactly when no command
is in progress, one line requested at a time with the level of the cursor's pattern, a wait requested exactly in `Wait`
and there only with a delay capability, `run_remaining` and `run_delay` as R106's `rem` and `m` give them. Nothing is
said of `wire`, `run_remaining`, `run_delay`, `out_level` and `dly_ms` where they are unspecified (logs 7, 22). That the ports are a view of the control state is the model's choice (log 22), and so is that the request stands from the
moment `Write` or `Wait` is entered (log 21). -/
def Obligations.PortsFollowControlState : Prop :=
  ∀ s : State, s.RunInv → s.ctrl ≠ .powerUp →
    (s.cmdReady = true ↔ s.ctrl = .idle) ∧
    (∀ k, s.outReq.getLsbD (LineNo.num k - 1) = true ↔ ∃ rem m run, s.ctrl = .write k rem m run) ∧
    (∀ k rem m run, s.ctrl = .write k rem m run →
      s.wire = BitVec.ofNat 3 k.num ∧ s.outLevel = levelBit (lineBit k s.pattern)) ∧
    (∀ k rem m, s.ctrl = .write k rem m true → s.runRemaining = rem + 1 ∧ s.runDelay = m) ∧
    (s.dlyReq = true ↔ ∃ rem m, s.ctrl = .wait rem m) ∧
    ∀ rem m, s.ctrl = .wait rem m →
      s.hasDelay = true ∧ s.outReq = 0#4 ∧ s.dlyMs = m ∧ s.runDelay = m ∧ s.runRemaining = rem

/-- Every command is accepted in `Idle` and answers a next state: no operand, table or answer stops it (R54, R127). -/
def Obligations.IdleBlockExecutesEveryCommand : Prop :=
  ∀ (i : Instr) (s : State), s.ctrl = .idle → ∃ t, exec i s = .next t

/-- R106: a step of a block left inside a command is the row of R106 for its control state and the answer: an ok write
goes on to the next line, to the response of a `STEP`, or to the wait of a run; a failed write leaves its line
unspecified and is the response; an ended wait starts the next step of the run or is its response. No reset and no power
cycle is at the head of the host's list, which is the model's (log 9). -/
def Obligations.BusyStepFollowsControlRows : Prop :=
  ∀ s : State, (∀ strap later, s.host ≠ .reset strap :: later) → (∀ later, s.host ≠ .powerCycle :: later) →
    (∀ k j rem m run, s.ctrl = .write k rem m run → j.num = k.num + 1 → s.writeReply k = .answered .ok →
      step s = .next { s.wroteOk k with ctrl := .write j rem m run }) ∧
    (∀ rem m, s.ctrl = .write .four rem m false → s.writeReply .four = .answered .ok →
      step s = .next
        { s.wroteOk .four with ctrl := .idle, trace := (s.wroteOk .four).trace ++ [.rsp .ok] }) ∧
    (∀ rem m, s.ctrl = .write .four rem m true → s.writeReply .four = .answered .ok →
      step s = .next
        { s.wroteOk .four with ctrl := .wait rem m, trace := (s.wroteOk .four).trace ++ [.delay m] }) ∧
    (∀ k rem m run c, s.ctrl = .write k rem m run → s.writeReply k = .answered (.fail c) →
      ∃ t, step s = .next t ∧ t.ctrl = .idle ∧ t.cursor = s.cursor ∧ t.dir = s.dir ∧ t.hasDelay = s.hasDelay ∧
        t.rom = s.rom ∧ t.waits = s.waits ∧ t.host = s.host ∧ LineUnspecified (s.line k) (t.line k) ∧
        (t.outs.get k).replies = (s.outs.get k).replies.pop ∧ s.OtherLinesSame t (fun j => j = k) ∧
        t.trace = s.trace ++ [.write k (lineBit k s.pattern) (.fail c), .rsp (.outputWriteFailed k c)]) ∧
    (∀ rem m, s.ctrl = .wait rem m → s.waits.head = .done → rem ≠ 0 →
      step s = .next
        { s with
          waits := s.waits.pop
          cursor := advance s.cursor s.dir
          ctrl := .write .one (rem - 1) m true }) ∧
    ∀ m, s.ctrl = .wait 0 m → s.waits.head = .done →
      step s = .next { s with waits := s.waits.pop, ctrl := .idle, trace := s.trace ++ [.rsp .ok] }
end

