-- ==== Sys2Proof/Laws/Encoding.lean ====
section
/-! SUPPORT. Slices of words, and what the decoder reads for each opcode (30_encoding R52, R57). -/

namespace Sys2Proof.Machine

/-- A word is its high slice beside its low slice. -/
theorem append_of_slices (a b : Nat) (w : BitVec (a + b)) : w.extractLsb' b a ++ w.extractLsb' 0 b = w := by
  apply BitVec.eq_of_getLsbD_eq
  intro i hi
  rw [BitVec.getLsbD_append]
  by_cases h : i < b
  · simp [h]
  · simp [h, show i - b < a by omega, show b + (i - b) = i by omega]

/-- A slice of a slice is a slice. -/
theorem slice_of_slice {w : Nat} (v : BitVec w) (b n a l : Nat) (h : a + l ≤ n) :
    (v.extractLsb' b n).extractLsb' a l = v.extractLsb' (b + a) l := by
  apply BitVec.eq_of_getLsbD_eq
  intro i hi
  simp [hi, show a + i < n by omega, Nat.add_assoc]

/-- A command word is its opcode beside its low 64 bits. -/
theorem word_of_op (w : CmdWord) {op : BitVec 2} {low : BitVec 64} (ho : opField w = op)
    (hl : w.extractLsb' 0 64 = low) : (op ++ low : CmdWord) = w := by
  rw [← ho, ← hl]
  exact append_of_slices 2 64 w

theorem opField_cases (w : CmdWord) :
    opField w = 0b00#2 ∨ opField w = 0b01#2 ∨ opField w = 0b10#2 ∨ opField w = 0b11#2 := by
  generalize opField w = x
  revert x
  decide

@[simp] theorem directionBit_directionOfBit (b : BitVec 1) : directionBit (directionOfBit b) = b := by
  revert b
  decide

@[simp] theorem directionOfBit_directionBit (d : Direction) : directionOfBit (directionBit d) = d := by
  cases d <;> rfl

/-- Field `d` as a direction. -/
theorem directionOfBit_dField (w : CmdWord) :
    directionOfBit (dField w) = if w.getLsbD 0 then .reverse else .forward := by
  have h : dField w = BitVec.ofBool (w.getLsbD 0) := by
    ext i hi
    obtain rfl : i = 0 := by omega
    simp [dField]
  rw [h]
  cases w.getLsbD 0 <;> rfl

section Decode

variable {w : CmdWord}

theorem decode_setDir (h : opField w = 0b01#2) : decode w = .setDir (directionOfBit (dField w)) := by simp [decode, h]

theorem decode_step (h : opField w = 0b10#2) : decode w = .step := by simp [decode, h]

theorem decode_stepFor (h : opField w = 0b11#2) : decode w = .stepFor (countField w) (delayField w) := by
  simp [decode, h]

theorem decode_illegal (h : opField w = 0b00#2) : decode w = .illegal := by simp [decode, h]

end Decode

end Sys2Proof.Machine
end

