-- ==== Sys2Proof/Laws/State.lean ====
section
/-! SUPPORT. One lemma per field per update of State, and the laws of the four output capabilities and of the
replies. -/

namespace Sys2Proof.Machine

section Updates

variable (s : State)

@[simp] theorem State.writeDir_cursor (d : Direction) : (s.writeDir d).cursor = s.cursor := rfl
@[simp] theorem State.writeDir_dir (d : Direction) : (s.writeDir d).dir = d := rfl
@[simp] theorem State.writeDir_hasDelay (d : Direction) : (s.writeDir d).hasDelay = s.hasDelay := rfl
@[simp] theorem State.writeDir_ctrl (d : Direction) : (s.writeDir d).ctrl = s.ctrl := rfl
@[simp] theorem State.writeDir_rom (d : Direction) : (s.writeDir d).rom = s.rom := rfl
@[simp] theorem State.writeDir_outs (d : Direction) : (s.writeDir d).outs = s.outs := rfl
@[simp] theorem State.writeDir_waits (d : Direction) : (s.writeDir d).waits = s.waits := rfl
@[simp] theorem State.writeDir_host (d : Direction) : (s.writeDir d).host = s.host := rfl
@[simp] theorem State.writeDir_trace (d : Direction) : (s.writeDir d).trace = s.trace := rfl
@[simp] theorem State.writeDir_draws (d : Direction) : (s.writeDir d).draws = s.draws := rfl

@[simp] theorem State.advanceCursor_cursor : s.advanceCursor.cursor = advance s.cursor s.dir := rfl
@[simp] theorem State.advanceCursor_dir : s.advanceCursor.dir = s.dir := rfl
@[simp] theorem State.advanceCursor_hasDelay : s.advanceCursor.hasDelay = s.hasDelay := rfl
@[simp] theorem State.advanceCursor_ctrl : s.advanceCursor.ctrl = s.ctrl := rfl
@[simp] theorem State.advanceCursor_rom : s.advanceCursor.rom = s.rom := rfl
@[simp] theorem State.advanceCursor_outs : s.advanceCursor.outs = s.outs := rfl
@[simp] theorem State.advanceCursor_waits : s.advanceCursor.waits = s.waits := rfl
@[simp] theorem State.advanceCursor_host : s.advanceCursor.host = s.host := rfl
@[simp] theorem State.advanceCursor_trace : s.advanceCursor.trace = s.trace := rfl
@[simp] theorem State.advanceCursor_draws : s.advanceCursor.draws = s.draws := rfl

@[simp] theorem State.record_cursor (e : Event) : (s.record e).cursor = s.cursor := rfl
@[simp] theorem State.record_dir (e : Event) : (s.record e).dir = s.dir := rfl
@[simp] theorem State.record_hasDelay (e : Event) : (s.record e).hasDelay = s.hasDelay := rfl
@[simp] theorem State.record_ctrl (e : Event) : (s.record e).ctrl = s.ctrl := rfl
@[simp] theorem State.record_rom (e : Event) : (s.record e).rom = s.rom := rfl
@[simp] theorem State.record_outs (e : Event) : (s.record e).outs = s.outs := rfl
@[simp] theorem State.record_waits (e : Event) : (s.record e).waits = s.waits := rfl
@[simp] theorem State.record_host (e : Event) : (s.record e).host = s.host := rfl
@[simp] theorem State.record_trace (e : Event) : (s.record e).trace = s.trace ++ [e] := rfl
@[simp] theorem State.record_draws (e : Event) : (s.record e).draws = s.draws := rfl

@[simp] theorem State.popReply_cursor (k : LineNo) : (s.popReply k).cursor = s.cursor := rfl
@[simp] theorem State.popReply_dir (k : LineNo) : (s.popReply k).dir = s.dir := rfl
@[simp] theorem State.popReply_hasDelay (k : LineNo) : (s.popReply k).hasDelay = s.hasDelay := rfl
@[simp] theorem State.popReply_ctrl (k : LineNo) : (s.popReply k).ctrl = s.ctrl := rfl
@[simp] theorem State.popReply_rom (k : LineNo) : (s.popReply k).rom = s.rom := rfl
@[simp] theorem State.popReply_outs (k : LineNo) : (s.popReply k).outs = s.outs.set k { s.outs.get k with replies := (s.outs.get k).replies.pop } := rfl
@[simp] theorem State.popReply_waits (k : LineNo) : (s.popReply k).waits = s.waits := rfl
@[simp] theorem State.popReply_host (k : LineNo) : (s.popReply k).host = s.host := rfl
@[simp] theorem State.popReply_trace (k : LineNo) : (s.popReply k).trace = s.trace := rfl
@[simp] theorem State.popReply_draws (k : LineNo) : (s.popReply k).draws = s.draws := rfl

@[simp] theorem State.driveLine_cursor (k : LineNo) (v : Level) : (s.driveLine k v).cursor = s.cursor := rfl
@[simp] theorem State.driveLine_dir (k : LineNo) (v : Level) : (s.driveLine k v).dir = s.dir := rfl
@[simp] theorem State.driveLine_hasDelay (k : LineNo) (v : Level) : (s.driveLine k v).hasDelay = s.hasDelay := rfl
@[simp] theorem State.driveLine_ctrl (k : LineNo) (v : Level) : (s.driveLine k v).ctrl = s.ctrl := rfl
@[simp] theorem State.driveLine_rom (k : LineNo) (v : Level) : (s.driveLine k v).rom = s.rom := rfl
@[simp] theorem State.driveLine_outs (k : LineNo) (v : Level) : (s.driveLine k v).outs = s.outs.set k { s.outs.get k with level := .driven v } := rfl
@[simp] theorem State.driveLine_waits (k : LineNo) (v : Level) : (s.driveLine k v).waits = s.waits := rfl
@[simp] theorem State.driveLine_host (k : LineNo) (v : Level) : (s.driveLine k v).host = s.host := rfl
@[simp] theorem State.driveLine_trace (k : LineNo) (v : Level) : (s.driveLine k v).trace = s.trace := rfl
@[simp] theorem State.driveLine_draws (k : LineNo) (v : Level) : (s.driveLine k v).draws = s.draws := rfl

@[simp] theorem State.disturbLine_cursor (k : LineNo) : (s.disturbLine k).cursor = s.cursor := rfl
@[simp] theorem State.disturbLine_dir (k : LineNo) : (s.disturbLine k).dir = s.dir := rfl
@[simp] theorem State.disturbLine_hasDelay (k : LineNo) : (s.disturbLine k).hasDelay = s.hasDelay := rfl
@[simp] theorem State.disturbLine_ctrl (k : LineNo) : (s.disturbLine k).ctrl = s.ctrl := rfl
@[simp] theorem State.disturbLine_rom (k : LineNo) : (s.disturbLine k).rom = s.rom := rfl
@[simp] theorem State.disturbLine_outs (k : LineNo) : (s.disturbLine k).outs = s.outs.set k { s.outs.get k with level := levelAfterFate (Config.failedWriteFate s.draws) (s.outs.get k).level } := rfl
@[simp] theorem State.disturbLine_waits (k : LineNo) : (s.disturbLine k).waits = s.waits := rfl
@[simp] theorem State.disturbLine_host (k : LineNo) : (s.disturbLine k).host = s.host := rfl
@[simp] theorem State.disturbLine_trace (k : LineNo) : (s.disturbLine k).trace = s.trace := rfl
@[simp] theorem State.disturbLine_draws (k : LineNo) : (s.disturbLine k).draws = s.draws + 1 := rfl

@[simp] theorem State.requestWait_cursor (m : DelayMs) : (s.requestWait m).cursor = s.cursor := rfl
@[simp] theorem State.requestWait_dir (m : DelayMs) : (s.requestWait m).dir = s.dir := rfl
@[simp] theorem State.requestWait_hasDelay (m : DelayMs) : (s.requestWait m).hasDelay = s.hasDelay := rfl
@[simp] theorem State.requestWait_ctrl (m : DelayMs) : (s.requestWait m).ctrl = s.ctrl := rfl
@[simp] theorem State.requestWait_rom (m : DelayMs) : (s.requestWait m).rom = s.rom := rfl
@[simp] theorem State.requestWait_outs (m : DelayMs) : (s.requestWait m).outs = s.outs := rfl
@[simp] theorem State.requestWait_waits (m : DelayMs) : (s.requestWait m).waits = s.waits := rfl
@[simp] theorem State.requestWait_host (m : DelayMs) : (s.requestWait m).host = s.host := rfl
@[simp] theorem State.requestWait_trace (m : DelayMs) : (s.requestWait m).trace = s.trace ++ [.delay m] := rfl
@[simp] theorem State.requestWait_draws (m : DelayMs) : (s.requestWait m).draws = s.draws := rfl

@[simp] theorem State.endWait_cursor : s.endWait.cursor = s.cursor := rfl
@[simp] theorem State.endWait_dir : s.endWait.dir = s.dir := rfl
@[simp] theorem State.endWait_hasDelay : s.endWait.hasDelay = s.hasDelay := rfl
@[simp] theorem State.endWait_ctrl : s.endWait.ctrl = s.ctrl := rfl
@[simp] theorem State.endWait_rom : s.endWait.rom = s.rom := rfl
@[simp] theorem State.endWait_outs : s.endWait.outs = s.outs := rfl
@[simp] theorem State.endWait_waits : s.endWait.waits = s.waits.pop := rfl
@[simp] theorem State.endWait_host : s.endWait.host = s.host := rfl
@[simp] theorem State.endWait_trace : s.endWait.trace = s.trace := rfl
@[simp] theorem State.endWait_draws : s.endWait.draws = s.draws := rfl

@[simp] theorem State.respond_cursor (r : Response) : (s.respond r).cursor = s.cursor := rfl
@[simp] theorem State.respond_dir (r : Response) : (s.respond r).dir = s.dir := rfl
@[simp] theorem State.respond_hasDelay (r : Response) : (s.respond r).hasDelay = s.hasDelay := rfl
@[simp] theorem State.respond_ctrl (r : Response) : (s.respond r).ctrl = .idle := rfl
@[simp] theorem State.respond_rom (r : Response) : (s.respond r).rom = s.rom := rfl
@[simp] theorem State.respond_outs (r : Response) : (s.respond r).outs = s.outs := rfl
@[simp] theorem State.respond_waits (r : Response) : (s.respond r).waits = s.waits := rfl
@[simp] theorem State.respond_host (r : Response) : (s.respond r).host = s.host := rfl
@[simp] theorem State.respond_trace (r : Response) : (s.respond r).trace = s.trace ++ [.rsp r] := rfl
@[simp] theorem State.respond_draws (r : Response) : (s.respond r).draws = s.draws := rfl

end Updates

section Capabilities

variable (o : Outputs) (k : LineNo)

@[simp] theorem Outputs.get_set_self (c : OutputCap) : (o.set k c).get k = c := by cases k <;> rfl

theorem Outputs.get_set_other {j : LineNo} (h : j ≠ k) (c : OutputCap) : (o.set k c).get j = o.get j := by
  cases j <;> cases k <;> first | rfl | exact absurd rfl h

theorem Outputs.ext_get {o o' : Outputs} (h : ∀ k, o.get k = o'.get k) : o = o' := by
  cases o
  cases o'
  simpa [Outputs.get] using And.intro (h .one) (And.intro (h .two) (And.intro (h .three) (h .four)))

@[simp] theorem Outputs.get_written (p : Pattern) : (o.written p).get k = (o.get k).written (lineBit k p) := by
  cases k <;> rfl

@[simp] theorem OutputCap.written_level (v : Level) (c : OutputCap) : (c.written v).level = .driven v := rfl

@[simp] theorem OutputCap.written_replies (v : Level) (c : OutputCap) : (c.written v).replies = c.replies.pop := rfl

theorem levelAfterFate_unspecified (f : LineFate) (before : LineLevel) : LineUnspecified before (levelAfterFate f before) := by
  cases f with
  | keeps => exact .inl rfl
  | takes v => exact .inr ⟨v, rfl⟩

end Capabilities

section Replies

variable {α : Type} (r : Script α)

@[simp] theorem Script.nth_zero : r.nth 0 = r.head := by cases r with | mk q x => cases q <;> rfl

@[simp] theorem Script.nth_pop (i : Nat) : r.pop.nth i = r.nth (i + 1) := by
  cases r with | mk q x => cases q <;> simp [Script.nth, Script.pop]

@[simp] theorem Script.head_pop : r.pop.head = r.nth 1 := by rw [← Script.nth_zero, Script.nth_pop]

end Replies

end Sys2Proof.Machine
end

