-- ==== Sys2Proof/Laws/Ops.lean ====
section
/-! SUPPORT. What each shared operation can do, once. -/

namespace Sys2Proof.Machine

section OutWrite

variable (k : LineNo) (v : Level) (s : State)

/-- Everything an `OutWrite` can do (R8): written, failed, or not answered. -/
theorem State.outWrite_cases :
    (s.writeReply k = .answered .ok ∧
      s.outWrite k v = (.answered .ok, ((s.popReply k).driveLine k v).record (.write k v .ok))) ∨
    (∃ c, s.writeReply k = .answered (.fail c) ∧
      s.outWrite k v = (.answered (.fail c), ((s.popReply k).disturbLine k).record (.write k v (.fail c)))) ∨
    (s.writeReply k = .silent ∧ s.outWrite k v = (.silent, s)) := by
  unfold State.outWrite
  rcases h : s.writeReply k with (_ | c) | _
  · exact .inl ⟨rfl, rfl⟩
  · exact .inr (.inl ⟨c, rfl, rfl⟩)
  · exact .inr (.inr ⟨rfl, rfl⟩)

/-- A write answered ok writes its own line. -/
theorem State.written_outs :
    ((s.popReply k).driveLine k v).outs = s.outs.set k ((s.outs.get k).written v) := by
  cases k <;> rfl

/-- A line whose write failed or was abandoned is unspecified (R15). -/
theorem State.disturbLine_unspecified : LineUnspecified (s.line k) ((s.disturbLine k).line k) := by
  simpa [State.line] using levelAfterFate_unspecified _ (s.outs.get k).level

/-- A line whose write failed or was abandoned leaves the other capabilities alone. -/
theorem State.disturbLine_other {j : LineNo} (h : j ≠ k) : (s.disturbLine k).outs.get j = s.outs.get j := by
  simp [Outputs.get_set_other _ _ h]

end OutWrite

/-- The capabilities when the writes before line `k` have been made. -/
def Outputs.writtenBefore (k : LineNo) (p : Pattern) (o : Outputs) : Outputs :=
  match k with
  | .one => o
  | .two => { o with out1 := o.out1.written (lineBit .one p) }
  | .three => { o with out1 := o.out1.written (lineBit .one p), out2 := o.out2.written (lineBit .two p) }
  | .four =>
    { o with
      out1 := o.out1.written (lineBit .one p)
      out2 := o.out2.written (lineBit .two p)
      out3 := o.out3.written (lineBit .three p) }

theorem Outputs.writtenBefore_lt {j k : LineNo} (h : j.num < k.num) (p : Pattern) (o : Outputs) :
    (o.writtenBefore k p).get j = (o.get j).written (lineBit j p) := by
  cases j <;> cases k <;> first | rfl | exact absurd h (by decide)

theorem Outputs.writtenBefore_ge {j k : LineNo} (h : k.num ≤ j.num) (p : Pattern) (o : Outputs) :
    (o.writtenBefore k p).get j = o.get j := by
  cases j <;> cases k <;> first | rfl | exact absurd h (by decide)

/-- The state of a step when the writes before line `k` have been made. -/
def State.partStep (k : LineNo) (s : State) : State :=
  { s.advanceCursor with
    outs := s.outs.writtenBefore k s.advanceCursor.pattern
    trace := s.trace ++ batchBefore k s.advanceCursor.pattern }

/-- The state of a step when all four writes have been made. -/
def State.wholeStep (s : State) : State :=
  { s.advanceCursor with
    outs := s.outs.written s.advanceCursor.pattern
    trace := s.trace ++ batch s.advanceCursor.pattern }

/-- Either all four writes of the next step will be answered ok, or there is a first one that will not. -/
theorem State.firstNotOk_total (s : State) :
    s.AllWritesOk ∨ ∃ k, (∃ c, s.FirstNotOk k (.answered (.fail c))) ∨ s.FirstNotOk k .silent := by
  have here : ∀ k, (∀ j, LineNo.num j < k.num → s.writeReply j = .answered .ok) → s.writeReply k ≠ .answered .ok →
      ∃ k, (∃ c, s.FirstNotOk k (.answered (.fail c))) ∨ s.FirstNotOk k .silent := by
    intro k before h
    refine ⟨k, ?_⟩
    rcases hr : s.writeReply k with (_ | c) | _
    · exact absurd hr h
    · exact .inl ⟨c, before, hr⟩
    · exact .inr ⟨before, hr⟩
  by_cases h1 : s.writeReply .one = .answered .ok
  · by_cases h2 : s.writeReply .two = .answered .ok
    · by_cases h3 : s.writeReply .three = .answered .ok
      · by_cases h4 : s.writeReply .four = .answered .ok
        · exact .inl fun k => by cases k <;> assumption
        · exact .inr (here .four (fun j hj => by cases j <;> first | assumption | exact absurd hj (by decide)) h4)
      · exact .inr (here .three (fun j hj => by cases j <;> first | assumption | exact absurd hj (by decide)) h3)
    · exact .inr (here .two (fun j hj => by cases j <;> first | assumption | exact absurd hj (by decide)) h2)
  · exact .inr (here .one (fun j hj => by cases j <;> exact absurd hj (by decide)) h1)

section StepBody

variable {s : State} {k : LineNo} {c : Cause}

theorem State.outWrite_of_ok {v : Level} (h : s.writeReply k = .answered .ok) :
    s.outWrite k v = (.answered .ok, ((s.popReply k).driveLine k v).record (.write k v .ok)) := by
  simp [State.outWrite, h]

theorem State.outWrite_of_fail {v : Level} (h : s.writeReply k = .answered (.fail c)) :
    s.outWrite k v =
      (.answered (.fail c), ((s.popReply k).disturbLine k).record (.write k v (.fail c))) := by
  simp [State.outWrite, h]

theorem State.outWrite_of_silent {v : Level} (h : s.writeReply k = .silent) : s.outWrite k v = (.silent, s) := by
  simp [State.outWrite, h]

/-- R84: a step whose writes are all answered ok. -/
theorem State.stepBody_of_allOk (h : s.AllWritesOk) : s.stepBody = .stepped s.wholeStep := by
  have h1 := h .one
  have h2 := h .two
  have h3 := h .three
  have h4 := h .four
  simp only [State.writeReply, Outputs.get] at h1 h2 h3 h4
  simp [State.stepBody, LineNo.all, State.writeLines, State.outWrite, State.writeReply, Outputs.get, Outputs.set,
    State.popReply, State.driveLine, State.record, State.advanceCursor, State.wholeStep, Outputs.written, batch,
    OutputCap.written, h1, h2, h3, h4]

/-- R85: a step whose first write not answered ok is answered `fail(c)`. -/
theorem State.stepBody_of_fail (h : s.FirstNotOk k (.answered (.fail c))) :
    s.stepBody = .writeFailed k c
      ((((s.partStep k).popReply k).disturbLine k).record
        (.write k (lineBit k s.advanceCursor.pattern) (.fail c))) := by
  obtain ⟨before, hk⟩ := h
  have h1 := before .one
  have h2 := before .two
  have h3 := before .three
  simp only [State.writeReply] at h1 h2 h3 hk
  cases k <;> simp_all [LineNo.num, State.stepBody, LineNo.all, State.writeLines, State.outWrite, State.writeReply,
    Outputs.get, Outputs.set, State.popReply, State.driveLine, State.disturbLine, State.record, State.advanceCursor,
    State.partStep, Outputs.writtenBefore, batchBefore, OutputCap.written]

/-- R106: a step whose first write not answered ok is never answered. -/
theorem State.stepBody_of_silent (h : s.FirstNotOk k .silent) : s.stepBody = .unanswered k (s.partStep k) := by
  obtain ⟨before, hk⟩ := h
  have h1 := before .one
  have h2 := before .two
  have h3 := before .three
  simp only [State.writeReply] at h1 h2 h3 hk
  cases k <;> simp_all [LineNo.num, State.stepBody, LineNo.all, State.writeLines, State.outWrite, State.writeReply,
    Outputs.get, Outputs.set, State.popReply, State.driveLine, State.record, State.advanceCursor,
    State.partStep, Outputs.writtenBefore, batchBefore, OutputCap.written]

end StepBody

section Accept

variable {s : State} {effect : State → State}

/-- Everything acceptance can do (R106, R143, R147). -/
theorem State.accept_cases :
    (s.ctrl = .idle ∧ s.accept effect = .next (effect s)) ∨
    (s.ctrl = .powerUp ∧ s.accept effect = .refused .commandBeforeReset) ∨
    (s.InCommand ∧ s.accept effect = .next s) := by
  unfold State.accept State.InCommand
  rcases h : s.ctrl with _ | _ | ⟨k, rem, m, run⟩ | ⟨rem, m⟩ <;> simp

theorem State.accept_idle (h : s.ctrl = .idle) : s.accept effect = .next (effect s) := by
  simp [State.accept, h]

theorem State.accept_busy (h : s.InCommand) : s.accept effect = .next s := by
  obtain ⟨k, rem, m, run, h⟩ | ⟨rem, m, h⟩ := h <;> simp [State.accept, h]

end Accept

end Sys2Proof.Machine
end

