-- ==== Sys2Proof/Laws/PerInstr.lean ====
section
/-! SUPPORT. The statements made command by command. -/

namespace Sys2Proof.Laws.EncodedOpcode

/-- R53: the word of a command carries its opcode in bits 65:64, and only the pseudo-command has no word. -/
def Statement (i : Instr) : Prop :=
  match i with
  | .setDir _ => (encode i).map Machine.opField = some 0b01#2
  | .step => (encode i).map Machine.opField = some 0b10#2
  | .stepFor _ _ => (encode i).map Machine.opField = some 0b11#2
  | .illegal => encode i = none

theorem setDir (d : Direction) : Statement (.setDir d) := by cases d <;> rfl

theorem step : Statement .step := rfl

theorem stepFor (count : Count) (delayMs : DelayMs) : Statement (.stepFor count delayMs) :=
  congrArg some BitVec.extractLsb'_append_eq_left

theorem illegal : Statement .illegal := rfl

end Sys2Proof.Laws.EncodedOpcode
end

