-- ==== Sys2Proof/Laws/Table.lean ====
section
/-! SUPPORT. The laws of the lookup and of the cursor (40_pattern_rom R71, R75; 41_cursor_fsm R81). -/

namespace Sys2Proof.Machine

/-- Inside the block the index is the 3-bit cursor, so the modulo changes nothing (R71). -/
theorem patternAt_cursor (rom : Rom) (c : Cursor) : patternAt rom c.toNat = romEntry rom c := by
  have h : BitVec.ofInt 3 ((c.toNat : Int) % 8) = c := by
    revert c
    decide
  rw [patternAt, h]

theorem State.pattern_eq (s : State) : s.pattern = romEntry s.rom s.cursor := patternAt_cursor s.rom s.cursor

@[simp] theorem movedBy_zero (c : Cursor) (d : Direction) : movedBy c d 0 = c := by
  cases d <;> simp [movedBy]

/-- Moving by `n + 1` is moving by one and then by `n`. -/
theorem movedBy_succ (c : Cursor) (d : Direction) (n : Nat) : movedBy c d (n + 1) = movedBy (advance c d) d n := by
  cases d
  · simp only [movedBy, advance, BitVec.ofNat_add]
    ac_rfl
  · apply BitVec.eq_of_toNat_eq
    simp [movedBy, advance, BitVec.toNat_sub, BitVec.toNat_add]
    omega

/-- Moving by `n + 1` is moving by `n` and then by one. -/
theorem movedBy_succ' (c : Cursor) (d : Direction) (n : Nat) : movedBy c d (n + 1) = advance (movedBy c d n) d := by
  cases d
  · simp only [movedBy, advance, BitVec.ofNat_add]
    ac_rfl
  · apply BitVec.eq_of_toNat_eq
    simp [movedBy, advance, BitVec.toNat_sub, BitVec.toNat_add]
    omega

end Sys2Proof.Machine
end

