-- ==== Sys2Proof/Laws/Run.lean ====
section
/-! SUPPORT. Everything a `STEP` and a run can do once accepted (41_cursor_fsm R84, R85; 42_step_for R100 to R105). -/

namespace Sys2Proof.Machine

/-- A step whose first write not answered ok is answered `fail(c)` on line `k` (R85), before the response. -/
def State.failedStep (k : LineNo) (c : Cause) (s : State) : State :=
  (((s.partStep k).popReply k).disturbLine k).record (.write k (lineBit k s.advanceCursor.pattern) (.fail c))

/-- A whole step of a run with its wait (R100). -/
def State.stepAndWait (m : DelayMs) (s : State) : State := (s.wholeStep.requestWait m).endWait

section Trace

variable (s : State) (k : LineNo)

@[simp] theorem State.partStep_trace : (s.partStep k).trace = s.trace ++ batchBefore k s.advanceCursor.pattern := rfl

@[simp] theorem State.wholeStep_trace : s.wholeStep.trace = s.trace ++ batch s.advanceCursor.pattern := rfl

@[simp] theorem State.wholeStep_waits : s.wholeStep.waits = s.waits := rfl

theorem State.failedStep_trace (c : Cause) :
    (s.failedStep k c).trace = s.trace ++
      (batchBefore k s.advanceCursor.pattern ++ [.write k (lineBit k s.advanceCursor.pattern) (.fail c)]) := by
  simp [State.failedStep]

/-- R18 (d): after four writes answered ok the lines show the cursor's pattern. -/
theorem State.wholeStep_shows : s.wholeStep.LinesShowPattern := by
  intro k
  simp [State.wholeStep, State.line, State.pattern]

/-- The lines already written show the cursor's pattern. -/
theorem State.partStep_shows {j : LineNo} (h : j.num < k.num) :
    (s.partStep k).line j = .driven (lineBit j (s.partStep k).pattern) := by
  simp [State.line, State.partStep, Outputs.writtenBefore_lt h, State.pattern]

end Trace

/-- The ways a `STEP` can end (R84, R85, R106), each with the answers it takes. -/
inductive StepEnd (s : State) : State → Prop where
  | ok : s.AllWritesOk → StepEnd s (s.wholeStep.respond .ok)
  | failed (k : LineNo) (c : Cause) : s.FirstNotOk k (.answered (.fail c)) →
      StepEnd s ((s.failedStep k c).respond (.outputWriteFailed k c))
  | unanswered (k : LineNo) : s.FirstNotOk k .silent →
      StepEnd s { s.partStep k with ctrl := .write k 0 0 false }

/-- `STEP` ends in one of these ways. -/
theorem stepEffect_end (s : State) : StepEnd s (stepEffect s) := by
  rcases s.firstNotOk_total with h | ⟨k, ⟨c, h⟩ | h⟩
  · rw [stepEffect, State.stepBody_of_allOk h]
    exact .ok h
  · rw [stepEffect, State.stepBody_of_fail h]
    exact .failed k c h
  · rw [stepEffect, State.stepBody_of_silent h]
    exact .unanswered k h

section Runs

variable {s : State} {n : Nat}

theorem State.WritesOk.allWritesOk (h : s.WritesOk (n + 1)) : s.AllWritesOk := fun k => by
  simpa [State.writeReply] using h k 0 (by omega)

/-- After a whole `STEP` and its response, one write fewer of each line is known to go well. -/
theorem State.WritesOk.afterStep (h : s.WritesOk (n + 1)) : (s.wholeStep.respond .ok).WritesOk n := fun k i hi => by
  simpa [State.wholeStep] using h k (i + 1) (by omega)

theorem State.RunOk.allWritesOk (h : s.RunOk (n + 1)) : s.AllWritesOk := State.WritesOk.allWritesOk h.1

theorem State.RunOk.waits_head (h : s.RunOk (n + 1)) : s.waits.head = .done := by
  simpa using h.2 0 (by omega)

theorem State.RunOk.stepAndWait (h : s.RunOk (n + 1)) (m : DelayMs) : (s.stepAndWait m).RunOk n := by
  constructor
  · intro k i hi
    simpa [State.stepAndWait, State.wholeStep] using h.1 k (i + 1) (by omega)
  · intro i hi
    simpa [State.stepAndWait] using h.2 (i + 1) (by omega)

/-- While the answers are ok the loop does whole steps with their waits (R100). -/
theorem runLoop_of_runOk (m : DelayMs) (h : s.RunOk n) (rest : Nat) :
    runLoop m (n + rest) s = runLoop m rest ((State.stepAndWait m)^[n] s) := by
  induction n generalizing s with
  | zero => simp
  | succ n ih =>
    rw [show n + 1 + rest = (n + rest) + 1 by omega, runLoop, State.stepBody_of_allOk h.allWritesOk]
    simp only [State.wholeStep_waits, h.waits_head]
    exact ih (h.stepAndWait m)

/-- What `n` whole steps with their waits leave (R105). -/
structure AfterSteps (m : DelayMs) (n : Nat) (s t : State) : Prop where
  cursor : t.cursor = movedBy s.cursor s.dir n
  dir : t.dir = s.dir
  hasDelay : t.hasDelay = s.hasDelay
  rom : t.rom = s.rom
  host : t.host = s.host
  ctrl : t.ctrl = s.ctrl
  draws : t.draws = s.draws
  trace : t.trace = s.trace ++ runEvents s.rom s.dir m s.cursor n
  replies : ∀ k i, (t.outs.get k).replies.nth i = (s.outs.get k).replies.nth (i + n)
  waits : ∀ i, t.waits.nth i = s.waits.nth (i + n)
  shows : 0 < n → t.LinesShowPattern
  outs : n = 0 → t.outs = s.outs

theorem afterSteps (m : DelayMs) (n : Nat) (s : State) : AfterSteps m n s ((State.stepAndWait m)^[n] s) := by
  induction n generalizing s with
  | zero =>
    exact ⟨by simp, rfl, rfl, rfl, rfl, rfl, rfl, by simp [runEvents], fun _ _ => rfl, fun _ => rfl,
      fun h => absurd h (by omega), fun _ => rfl⟩
  | succ n ih =>
    rw [Function.iterate_succ_apply]
    have a := ih (s.stepAndWait m)
    refine ⟨?_, a.dir, a.hasDelay, a.rom, a.host, a.ctrl, a.draws, ?_, ?_, ?_, ?_, fun h => absurd h (by omega)⟩
    · rw [a.cursor, movedBy_succ]
      rfl
    · rw [a.trace]
      simp [State.stepAndWait, State.wholeStep, runEvents, State.pattern]
    · intro k i
      rw [a.replies]
      simp [State.stepAndWait, State.wholeStep, Nat.add_assoc]
    · intro i
      rw [a.waits]
      simp [State.stepAndWait, Nat.add_assoc]
    · intro _
      rcases Nat.eq_zero_or_pos n with rfl | hn
      · exact s.wholeStep_shows
      · exact a.shows hn

/-- After `n` whole steps the next step meets the answers that come after them. -/
theorem State.FirstNotOkAfter.now {k : LineNo} {r : WriteReply} (h : s.FirstNotOkAfter n k r) (m : DelayMs) :
    ((State.stepAndWait m)^[n] s).FirstNotOk k r := by
  have a := afterSteps m n s
  constructor
  · intro j hj
    rw [State.writeReply, ← Script.nth_zero, a.replies]
    simpa using h.1 j hj
  · rw [State.writeReply, ← Script.nth_zero, a.replies]
    simpa using h.2

/-- Either the next `n` steps and waits all go well, or there is a first that does not, and one of three ways it does
not. -/
theorem State.runOk_or_stops (n : Nat) (s : State) :
    s.RunOk n ∨ ∃ j, j < n ∧ s.RunOk j ∧
      ((∃ k c, s.FirstNotOkAfter j k (.answered (.fail c))) ∨ (∃ k, s.FirstNotOkAfter j k .silent) ∨
        ((∀ k, (s.outs.get k).replies.nth j = .answered .ok) ∧ s.waits.nth j = .silent)) := by
  induction n with
  | zero => exact .inl ⟨fun _ _ h => absurd h (by omega), fun _ h => absurd h (by omega)⟩
  | succ n ih =>
    rcases ih with h | ⟨j, hj, h⟩
    · have a := afterSteps 0 n s
      rcases ((State.stepAndWait 0)^[n] s).firstNotOk_total with h' | ⟨k, ⟨c, h'⟩ | h'⟩
      · have ok : ∀ k, (s.outs.get k).replies.nth n = .answered .ok := fun k => by
          have := h' k
          rw [State.writeReply, ← Script.nth_zero, a.replies] at this
          simpa using this
        rcases hw : s.waits.nth n with _ | _
        · left
          constructor
          · intro k i hi
            rcases Nat.lt_succ_iff_lt_or_eq.mp hi with hi | rfl
            · exact h.1 k i hi
            · exact ok k
          · intro i hi
            rcases Nat.lt_succ_iff_lt_or_eq.mp hi with hi | rfl
            · exact h.2 i hi
            · exact hw
        · exact .inr ⟨n, by omega, h, .inr (.inr ⟨ok, hw⟩)⟩
      all_goals
        obtain ⟨before, here⟩ := h'
        simp only [State.writeReply, ← Script.nth_zero, a.replies, Nat.zero_add] at before here
        right
      · exact ⟨n, by omega, h, .inl ⟨k, c, before, here⟩⟩
      · exact ⟨n, by omega, h, .inr (.inl ⟨k, before, here⟩)⟩
    · exact .inr ⟨j, by omega, h⟩

/-- The ways a run of `n` steps can end (R104, R105, R106), each with the answers it takes; `j` whole steps and waits
come before. -/
inductive RunEnd (m : DelayMs) (n : Nat) (s : State) : State → Prop where
  | ok : s.RunOk n → RunEnd m n s (((State.stepAndWait m)^[n] s).respond .ok)
  | failed (j : Nat) (k : LineNo) (c : Cause) : j < n → s.RunOk j → s.FirstNotOkAfter j k (.answered (.fail c)) →
      RunEnd m n s ((((State.stepAndWait m)^[j] s).failedStep k c).respond (.outputWriteFailed k c))
  | writeUnanswered (j : Nat) (k : LineNo) : j < n → s.RunOk j → s.FirstNotOkAfter j k .silent →
      RunEnd m n s
        { ((State.stepAndWait m)^[j] s).partStep k with ctrl := .write k (BitVec.ofNat 32 (n - j - 1)) m true }
  | waitUnanswered (j : Nat) : j < n → s.RunOk j → (∀ k, (s.outs.get k).replies.nth j = .answered .ok) →
      s.waits.nth j = .silent →
      RunEnd m n s
        { ((State.stepAndWait m)^[j] s).wholeStep.requestWait m with
          ctrl := .wait (BitVec.ofNat 32 (n - j - 1)) m }

/-- The loop of `STEP_FOR` ends in one of these ways. -/
theorem runLoop_end (m : DelayMs) (n : Nat) (s : State) : RunEnd m n s (runLoop m n s) := by
  rcases s.runOk_or_stops n with h | ⟨j, hj, hr, h⟩
  · have := runLoop_of_runOk m h 0
    rw [Nat.add_zero] at this
    rw [this]
    exact .ok h
  · obtain ⟨q, hq⟩ : ∃ q, n = j + (q + 1) := ⟨n - j - 1, by omega⟩
    have hq' : n - j - 1 = q := by omega
    have e := runLoop_of_runOk m hr (q + 1)
    rw [← hq] at e
    rcases h with ⟨k, c, h⟩ | ⟨k, h⟩ | ⟨ok, silent⟩
    · rw [e, runLoop, State.stepBody_of_fail (h.now m)]
      exact .failed j k c hj hr h
    · rw [e, runLoop, State.stepBody_of_silent (h.now m), ← hq']
      exact .writeUnanswered j k hj hr h
    · have a := afterSteps m j s
      have allOk : ((State.stepAndWait m)^[j] s).AllWritesOk := fun k => by
        rw [State.writeReply, ← Script.nth_zero, a.replies]
        simpa using ok k
      have head : ((State.stepAndWait m)^[j] s).waits.head = .silent := by
        rw [← Script.nth_zero, a.waits]
        simpa using silent
      rw [e, runLoop, State.stepBody_of_allOk allOk]
      simp only [State.wholeStep_waits, head, ← hq']
      exact .waitUnanswered j hj hr ok silent

end Runs

end Sys2Proof.Machine
end

