-- ==== Sys2Proof/Laws/Step.lean ====
section
/-! SUPPORT. Everything `exec`, `tick`, `fetch` and `step` can do, once. -/

namespace Sys2Proof.Machine

/-- What an accepted command does. -/
def effectOf : Instr → State → State
  | .setDir d => setDirEffect d
  | .step => stepEffect
  | .stepFor count m => stepForEffect count m
  | .illegal => illegalEffect

theorem exec_eq_accept (i : Instr) (s : State) : exec i s = s.accept (effectOf i) := by cases i <;> rfl

theorem exec_of_idle (i : Instr) {s : State} (h : s.ctrl = .idle) : exec i s = .next (effectOf i s) := by
  rw [exec_eq_accept, State.accept_idle h]

/-- Where a command answers a next state: it was accepted, or the block is busy and nothing happened. -/
theorem exec_next_cases {i : Instr} {s t : State} (h : exec i s = .next t) :
    (s.ctrl = .idle ∧ t = effectOf i s) ∨ (s.InCommand ∧ t = s) := by
  rw [exec_eq_accept] at h
  rcases State.accept_cases (s := s) (effect := effectOf i) with ⟨a, b⟩ | ⟨a, b⟩ | ⟨a, b⟩ <;> rw [b] at h
  · cases h
    exact .inl ⟨a, rfl⟩
  · cases h
  · cases h
    exact .inr ⟨a, rfl⟩

theorem stepForEffect_of_delay {count : Count} {m : DelayMs} {s : State} (h : s.hasDelay = true) :
    stepForEffect count m s = runLoop m count.toNat s := by simp [stepForEffect, h]

theorem stepForEffect_of_noDelay {count : Count} {m : DelayMs} {s : State} (h : s.hasDelay = false) :
    stepForEffect count m s = s.respond .noDelayConfigured := by simp [stepForEffect, h]

section Ticks

variable {s t : State} {k : LineNo} {rem : Count} {m : DelayMs} {run : Bool}

/-- The rows of R106 that leave `Write(k, rem, m, run)`. -/
theorem tick_of_write (h : s.ctrl = .write k rem m run) : tick s = tickWrite k rem m run s := by simp [tick, h]

/-- The rows of R106 that leave `Wait(rem, m)`. -/
theorem tick_of_wait (h : s.ctrl = .wait rem m) : tick s = tickWait rem m s := by simp [tick, h]

/-- A transition of R106 leaves the table, the strap's copy, the direction and the host's list alone. -/
theorem tick_frame (h : tick s = some t) :
    t.rom = s.rom ∧ t.hasDelay = s.hasDelay ∧ t.dir = s.dir ∧ t.host = s.host := by
  rcases hc : s.ctrl with _ | _ | ⟨k, rem, m, run⟩ | ⟨rem, m⟩
  · simp [tick, hc] at h
  · simp [tick, hc] at h
  · rw [tick_of_write hc, tickWrite] at h
    rcases s.outWrite_cases k (lineBit k s.pattern) with ⟨-, e⟩ | ⟨c, -, e⟩ | ⟨-, e⟩ <;> rw [e] at h
    · cases k <;> cases run <;> simp [LineNo.next?] at h <;> subst h <;> exact ⟨rfl, rfl, rfl, rfl⟩
    · simp only [Option.some.injEq] at h
      subst h
      exact ⟨rfl, rfl, rfl, rfl⟩
    · cases h
  · rw [tick_of_wait hc, tickWait] at h
    split at h
    · cases h
    · split at h <;> (simp only [Option.some.injEq] at h; subst h; exact ⟨rfl, rfl, rfl, rfl⟩)

/-- A transition of R106 moves the cursor only where a wait has ended and steps are left. -/
theorem tick_cursor (h : tick s = some t) :
    t.cursor = s.cursor ∨ ∃ rem m, s.ctrl = .wait rem m ∧ rem ≠ 0 ∧ t.cursor = advance s.cursor s.dir := by
  rcases hc : s.ctrl with _ | _ | ⟨k, rem, m, run⟩ | ⟨rem, m⟩
  · simp [tick, hc] at h
  · simp [tick, hc] at h
  · rw [tick_of_write hc, tickWrite] at h
    rcases s.outWrite_cases k (lineBit k s.pattern) with ⟨-, e⟩ | ⟨c, -, e⟩ | ⟨-, e⟩ <;> rw [e] at h
    · cases k <;> cases run <;> simp [LineNo.next?] at h <;> subst h <;> exact .inl rfl
    · simp only [Option.some.injEq] at h
      subst h
      exact .inl rfl
    · cases h
  · rw [tick_of_wait hc, tickWait] at h
    split at h
    · cases h
    · split at h <;> (simp only [Option.some.injEq] at h; subst h)
      · exact .inl rfl
      · exact .inr ⟨rem, m, rfl, ‹_›, rfl⟩

end Ticks

/-- Everything that can happen next. -/
theorem fetch_cases (s : State) :
    (∃ strap later, s.host = .reset strap :: later ∧
      fetch s = .event (State.applyReset strap { s with host := later })) ∨
    (∃ later, s.host = .powerCycle :: later ∧ fetch s = .event (State.applyPowerCycle { s with host := later })) ∨
    (∃ w later, s.host = .command w :: later ∧ ¬ s.InCommand ∧ fetch s = .command w { s with host := later }) ∨
    (s.host = [] ∧ ¬ s.InCommand ∧ fetch s = .event s) ∨
    (s.InCommand ∧ (∀ strap later, s.host ≠ .reset strap :: later) ∧
      (∀ later, s.host ≠ .powerCycle :: later) ∧ fetch s = (tick s).elim .stuck .event) := by
  rcases hh : s.host with _ | ⟨_ | _ | _, later⟩ <;>
    rcases hc : s.ctrl with _ | _ | ⟨k, rem, m, run⟩ | ⟨rem, m⟩ <;> simp [fetch, hh, hc, State.InCommand]

/-- Everything a step can do when it answers a next state. -/
theorem step_next_cases {s t : State} (h : step s = .next t) :
    (∃ strap later, s.host = .reset strap :: later ∧ t = State.applyReset strap { s with host := later }) ∨
    (∃ later, s.host = .powerCycle :: later ∧ t = State.applyPowerCycle { s with host := later }) ∨
    (∃ w later, s.host = .command w :: later ∧ ¬ s.InCommand ∧
      exec (decode w) { s with host := later } = .next t) ∨
    (s.host = [] ∧ ¬ s.InCommand ∧ t = s) ∨
    (s.InCommand ∧ (∀ strap later, s.host ≠ .reset strap :: later) ∧
      (∀ later, s.host ≠ .powerCycle :: later) ∧ tick s = some t) := by
  unfold step at h
  rcases fetch_cases s with ⟨strap, later, a, e⟩ | ⟨later, a, e⟩ | ⟨w, later, a, c, e⟩ | ⟨a, c, e⟩ | ⟨a, c, d, e⟩ <;>
    rw [e] at h
  · cases h
    exact .inl ⟨strap, later, a, rfl⟩
  · cases h
    exact .inr (.inl ⟨later, a, rfl⟩)
  · exact .inr (.inr (.inl ⟨w, later, a, c, h⟩))
  · cases h
    exact .inr (.inr (.inr (.inl ⟨a, c, rfl⟩)))
  · rcases ht : tick s with _ | t' <;> simp only [ht, Option.elim] at h
    · cases h
    · cases h
      exact .inr (.inr (.inr (.inr ⟨a, c, d, rfl⟩)))

/-- A step of a state with a word to fetch executes the command the word decodes to. -/
theorem step_withFetchWord (s : State) (nbits w : Nat) :
    step (s.withFetchWord nbits w) = exec (decode (BitVec.ofNat 66 (w % 2 ^ nbits))) { s with ctrl := .idle } := rfl

end Sys2Proof.Machine
end

