-- ==== Sys2Proof/Machine/Assembler.lean ====
section
/-! DEFINITION. The listing syntax of 30_encoding R59: one command a line, `;` starts a comment, `RESET <h>` stands
for a reset with the strap at `<h>`. Lines are lists of characters (log 19). -/

namespace Sys2Proof.Machine

/-- What one line of a listing stands for. -/
inductive ListingLine where
  | blank
  | reset (strap : Bool)
  | command (i : Instr)
  deriving DecidableEq, Repr

/-- The line up to its comment. -/
def uncomment : List Char → List Char
  | [] => []
  | c :: cs => if c = ';' then [] else c :: uncomment cs

/-- Split into words at spaces and tabs; a comma is a word of its own. `word` is the word being read. -/
def tokens (word : List Char) : List Char → List (List Char)
  | [] => if word = [] then [] else [word]
  | c :: cs =>
    if c = ' ' ∨ c = '\t' then (if word = [] then tokens [] cs else word :: tokens [] cs)
    else if c = ',' then (if word = [] then [','] :: tokens [] cs else word :: [','] :: tokens [] cs)
    else tokens (word ++ [c]) cs

/-- The value of a digit in a base up to 16. -/
def digitValue (base : Nat) (c : Char) : Option Nat :=
  let v :=
    if '0' ≤ c ∧ c ≤ '9' then c.toNat - '0'.toNat
    else if 'a' ≤ c ∧ c ≤ 'f' then c.toNat - 'a'.toNat + 10
    else if 'A' ≤ c ∧ c ≤ 'F' then c.toNat - 'A'.toNat + 10
    else base
  if v < base then some v else none

/-- The number a list of digits writes, `value` being what is read so far. -/
def digitsValue (base value : Nat) : List Char → Option Nat
  | [] => some value
  | c :: cs => (digitValue base c).bind fun d => digitsValue base (value * base + d) cs

/-- A number in decimal or `0x` hex (R59). -/
def numberValue : List Char → Option Nat
  | [] => none
  | ['0', 'x'] => none
  | '0' :: 'x' :: c :: cs => digitsValue 16 0 (c :: cs)
  | c :: cs => digitsValue 10 0 (c :: cs)

/-- A 32-bit operand: a number of more than 32 bits is no operand (R54, R59). -/
def operandValue (cs : List Char) : Option (BitVec 32) :=
  (numberValue cs).bind fun v => if v < 2 ^ 32 then some (BitVec.ofNat 32 v) else none

/-- One line of a listing (R59); none where it is not one. -/
def parseLine (line : List Char) : Option ListingLine :=
  match tokens [] (uncomment line) with
  | [] => some .blank
  | [['S', 'T', 'E', 'P']] => some (.command .step)
  | [['S', 'E', 'T', '_', 'D', 'I', 'R'], ['F', 'W', 'D']] => some (.command (.setDir .forward))
  | [['S', 'E', 'T', '_', 'D', 'I', 'R'], ['R', 'E', 'V']] => some (.command (.setDir .reverse))
  | [['R', 'E', 'S', 'E', 'T'], ['0']] => some (.reset false)
  | [['R', 'E', 'S', 'E', 'T'], ['1']] => some (.reset true)
  | [['S', 'T', 'E', 'P', '_', 'F', 'O', 'R'], count, [','], delay] =>
    (operandValue count).bind fun c => (operandValue delay).map fun m => .command (.stepFor c m)
  | _ => none

/-- What the host does for a line: present the command's word, or reset (R59). -/
def ListingLine.events : ListingLine → List HostEvent
  | .blank => []
  | .reset strap => [.reset strap]
  | .command i => ((encode i).map HostEvent.command).toList

/-- A listing as the host's list of events; none where a line is not one of R59. -/
def assemble : List (List Char) → Option (List HostEvent)
  | [] => some []
  | line :: lines => (parseLine line).bind fun l => (assemble lines).map fun later => l.events ++ later

end Sys2Proof.Machine
end

