-- ==== Sys2Proof/Tests/Slice0.lean ====
section
/-! SUPPORT. Tests: expected values from spec/95_test_vectors.md and the rules it cites; then, for each obligation with
hypotheses, a state that meets them. -/

namespace Sys2Proof.Tests

open Sys2Proof Sys2Proof.Machine

/-- The next state of an outcome. -/
def nextOf : Host.Outcome State Fault Refusal → Option State
  | .next t => some t
  | .fault _ => none
  | .refused _ => none

/-- The reset state with these first replies of lines 1 to 4 and of the delay capability. -/
def scripted (w1 w2 w3 w4 : List WriteReply) (waits : List WaitReply) : State :=
  { State.reset with
    outs :=
      { out1 := { OutputCap.reset with replies := { queue := w1, rest := .answered .ok } }
        out2 := { OutputCap.reset with replies := { queue := w2, rest := .answered .ok } }
        out3 := { OutputCap.reset with replies := { queue := w3, rest := .answered .ok } }
        out4 := { OutputCap.reset with replies := { queue := w4, rest := .answered .ok } } }
    waits := { queue := waits, rest := .done } }

/-- P5's environment: line 3 fails its second write with cause 0x2a. -/
def thirdFailsSecond : State := scripted [] [] [.answered .ok, .answered (.fail 0x2a)] [] []

/-- Lines 1 and 2 will both fail (2.5). -/
def firstTwoFail : State := scripted [.answered (.fail 0x11)] [.answered (.fail 0x12)] [] [] []

/-- Line 4 will fail (2.5). -/
def fourthFails : State := scripted [] [] [] [.answered (.fail 0x11)] []

/-- A `STEP` whose write to line 2 is requested and not answered (2.8). -/
def hungOnLineTwo : State := { scripted [] [.silent] [] [] [] with ctrl := .write .two 0 0 false }

/-- A run waiting with six steps to do (2.8). -/
def hungWaiting : State :=
  { scripted [] [] [] [] [.silent] with cursor := 4, ctrl := .wait 6 2 }

section Encoding

theorem test_decode_setDir_forward : decode 0x10000000000000000#66 = .setDir .forward := by decide

theorem test_decode_setDir_reverse_ignored_bits :
    decode 0x10000000000000001#66 = .setDir .reverse ∧ decode 0x1fffffffffffffffe#66 = .setDir .forward ∧
      decode 0x1ffffffffffffffff#66 = .setDir .reverse := by decide

theorem test_decode_step : decode 0x20000000000000000#66 = .step ∧ decode 0x2deadbeef00c0ffee#66 = .step := by decide

theorem test_decode_stepFor :
    decode 0x30000006400000005#66 = .stepFor 100 5 ∧ decode 0x30000000a00000001#66 = .stepFor 10 1 ∧
      decode 0x3ffffffffffffffff#66 = .stepFor 4294967295 4294967295 ∧ decode 0x30000000100000000#66 = .stepFor 1 0 := by
  decide

theorem test_decode_illegal : decode 0x0#66 = .illegal ∧ decode 0x0ffffffffffffffff#66 = .illegal := by decide

theorem test_encode_words :
    encode (.setDir .reverse) = some 0x10000000000000001#66 ∧ encode .step = some 0x20000000000000000#66 ∧
      encode (.stepFor 100 5) = some 0x30000006400000005#66 := by decide

theorem test_table_words :
    decodeTableWord 72 0x10000000000000000 = some (.setDir .forward) ∧ decodeTableWord 72 0x20000000000000000 = some .step ∧
      decodeTableWord 72 0x30000000000000000 = some (.stepFor 0 0) ∧ decodeTableWord 72 0 = some .illegal ∧
      decodeTableWord 72 0x40000000000000000 = none := by decide

theorem test_illFormed_illegal_refused : Instr.illegal.WellFormed = false := by decide

theorem test_response_words :
    (Response.outputWriteFailed .one 0x00).word = 0x0900#13 ∧ (Response.outputWriteFailed .three 0x2a).word = 0x0b2a#13 ∧
      (Response.outputWriteFailed .four 0xff).word = 0x0cff#13 ∧ Response.illegalCommand.word = 0x1800#13 := by decide

/-- Program P3's listing, and an operand over 32 bits. -/
theorem test_listing :
    assemble [['R', 'E', 'S', 'E', 'T', ' ', '1'],
      ['S', 'T', 'E', 'P', '_', 'F', 'O', 'R', ' ', '3', ',', ' ', '0', 'x', '5', ' ', ';', ' ', 'r', 'u', 'n'],
      ['S', 'E', 'T', '_', 'D', 'I', 'R', ' ', 'R', 'E', 'V']] =
      some [.reset true, .command 0x30000000300000005#66, .command 0x10000000000000001#66] ∧
    parseLine ['S', 'T', 'E', 'P', '_', 'F', 'O', 'R', ' ', '4', '2', '9', '4', '9', '6', '7', '2', '9', '6', ',', '0'] =
      none := by decide

end Encoding

section Rom

/-- 2.2. -/
theorem test_patternAt :
    patternAt Config.defaultTable 9 = 0b1100#4 ∧ patternAt Config.defaultTable 100 = 0b0010#4 ∧
      patternAt Config.defaultTable 4294967295 = 0b1001#4 ∧ patternAt Config.defaultTable (-8) = 0b1000#4 ∧
      patternAt Config.defaultTable (-10) = 0b0001#4 := by decide

/-- R7: `4'b1000` means line 1 HIGH, lines 2 to 4 LOW. -/
theorem test_pattern_bits :
    LineNo.all.map (fun k => lineBit k 0b1000#4) = [.high, .low, .low, .low] ∧
      LineNo.all.map (fun k => lineBit k 0b0011#4) = [.low, .low, .high, .high] := by decide

/-- A table that is no half-step sequence: two entries swapped. -/
theorem test_halfStepWF_refuses :
    halfStepWF #v[0b1100#4, 0b1000#4, 0b0100#4, 0b0110#4, 0b0010#4, 0b0011#4, 0b0001#4, 0b1001#4] = false := by decide

end Rom

section Commands

/-- 2.3, fourth row. -/
theorem test_setDir :
    (nextOf (exec (.setDir .forward) { State.reset with cursor := 5, dir := .reverse })).map
      (fun t => (t.cursor, t.dir, t.trace)) = some (5#3, .forward, [.rsp .ok]) := by decide

/-- R84's example: the first step applies entry 1, not entry 0. -/
theorem test_step_from_reset :
    (nextOf (exec .step State.reset)).map (fun t => (t.cursor, t.trace, LineNo.all.map t.line)) =
      some (1#3,
        [.write .one .high .ok, .write .two .high .ok, .write .three .low .ok, .write .four .low .ok, .rsp .ok],
        [.driven .high, .driven .high, .driven .low, .driven .low]) := by decide

/-- 2.5 and the last line of it: only the failure of line 1 is seen, line 2 is never asked. -/
theorem test_step_first_failure_only :
    (nextOf (exec .step firstTwoFail)).map (fun t => (t.cursor, t.trace, t.line .two, t.writeReply .two)) =
      some (1#3, [.write .one .high (.fail 0x11), .rsp (.outputWriteFailed .one 0x11)], .unwritten,
        .answered (.fail 0x12)) := by decide

/-- P5: the run aborts at step 2 with 7 writes and 1 wait; the cursor is 2; line 4 still holds entry 1. -/
theorem test_stepFor_aborts :
    (nextOf (exec (.stepFor 10 1) thirdFailsSecond)).map
      (fun t => (t.cursor, t.trace.drop 5, t.trace.length, t.line .two, t.line .four)) =
      some (2#3, [.write .one .low .ok, .write .two .high .ok, .write .three .low (.fail 0x2a),
        .rsp (.outputWriteFailed .three 0x2a)], 9, .driven .high, .driven .low) := by decide

/-- 2.6, reverse: `STEP_FOR 3, 2` ends at cursor 5 on entry 5 after three waits, the last after the last step. -/
theorem test_stepFor_reverse :
    (nextOf (exec (.stepFor 3 2) { State.reset with dir := .reverse })).map
      (fun t => (t.cursor, LineNo.all.map t.line, t.trace.countP Event.isDelay, t.trace.drop 14)) =
      some (5#3, [.driven .low, .driven .low, .driven .high, .driven .high], 3, [.delay 2, .rsp .ok]) := by decide

/-- 2.7. -/
theorem test_illegal :
    (nextOf (exec .illegal State.reset)).map (fun t => (t.cursor, t.dir, t.trace, t.line .one)) =
      some (0#3, .forward, [.rsp .illegalCommand], .unwritten) := by decide

end Commands

section Steps

/-- 2.8, third row: the run is abandoned without a response. -/
theorem test_reset_during_wait :
    (nextOf (step { hungWaiting with host := [.reset false] })).map
      (fun t => (t.cursor, t.hasDelay, t.ctrl, t.trace)) =
      some (0#3, false, .idle, []) := by decide

/-- 2.8, fourth row: lines 1, 3, 4 keep what they had. -/
theorem test_reset_during_write :
    (nextOf (step { hungOnLineTwo with host := [.reset false] })).map
      (fun t => (t.cursor, t.ctrl, t.trace, t.line .one, t.line .three)) =
      some (0#3, .idle, [], .unwritten, .unwritten) := by decide

/-- R106: after the last wait of a run comes the response. -/
theorem test_tick_last_wait :
    (nextOf (step { State.reset with ctrl := .wait 0 7 })).map (fun t => (t.ctrl, t.trace)) =
      some (.idle, [.rsp .ok]) := by decide

/-- R51, R16: the ports while the write to line 2 of entry 0 (`1000`) is requested, and the input handshakes. -/
theorem test_ports :
    (hungOnLineTwo.outReq, hungOnLineTwo.wire, hungOnLineTwo.outLevel, hungOnLineTwo.cmdReady) =
      (0b0010#4, 2#3, 0#1, false) ∧ (hungWaiting.dlyReq, hungWaiting.dlyMs, hungWaiting.runRemaining) =
      (true, 2#32, 6#32) ∧ WriteReply.ofPorts true true 0x2a = .answered (.fail 0x2a) ∧
      WriteReply.ofPorts true false 0x2a = .answered .ok ∧ WriteReply.ofPorts false false 0 = .silent := by decide

theorem test_withFetchWord :
    (nextOf (step (State.reset.withFetchWord 72 0x10000000000000001))).map (fun t => (t.dir, t.host)) =
      some (.reverse, []) := by decide

end Steps

section Witnesses

theorem reset_allOk : State.reset.AllWritesOk := fun k => by cases k <;> rfl

theorem reset_writesOk (n : Nat) : State.reset.WritesOk n := fun k i _ => by cases k <;> rfl

theorem reset_runOk (n : Nat) : State.reset.RunOk n := ⟨reset_writesOk n, fun _ _ => rfl⟩

theorem witness_ResetFromAnyState :
    { hungOnLineTwo with host := [.reset true] }.host = .reset true :: [] ∧
      ∃ rem m run, hungOnLineTwo.ctrl = .write .two rem m run := ⟨rfl, 0, 0, false, rfl⟩

theorem witness_ResetFromAnyState_wait : ∃ rem m, hungWaiting.ctrl = .wait rem m := ⟨6, 2, rfl⟩

theorem witness_ResetSilentAndRepeatable :
    State.reset.ctrl = .idle ∧ (State.reset.applyReset false).AllWritesOk := ⟨rfl, fun k => by cases k <;> rfl⟩

theorem witness_PowerUpNeedsReset :
    { State.reset with host := [.powerCycle, .reset true] }.host = .powerCycle :: [.reset true] := rfl

theorem witness_SetDirResult : State.reset.ctrl = .idle ∧ State.reset.cursor = 0#3 ∧ hungOnLineTwo.InCommand :=
  ⟨rfl, rfl, .inl ⟨_, _, _, _, rfl⟩⟩

theorem witness_StepResult : State.reset.ctrl = .idle ∧ State.reset.AllWritesOk := ⟨rfl, reset_allOk⟩

theorem witness_StepFirstFailure_first :
    firstTwoFail.ctrl = .idle ∧ firstTwoFail.FirstNotOk .one (.answered (.fail 0x11)) :=
  ⟨rfl, fun j h => by cases j <;> exact absurd h (by decide), rfl⟩

theorem witness_StepFirstFailure_last :
    fourthFails.ctrl = .idle ∧ fourthFails.FirstNotOk .four (.answered (.fail 0x11)) :=
  ⟨rfl, fun j h => by cases j <;> first | rfl | exact absurd h (by decide), rfl⟩

theorem witness_StepUnansweredStaysBusy :
    (scripted [] [.silent] [] [] []).ctrl = .idle ∧ (scripted [] [.silent] [] [] []).FirstNotOk .two .silent :=
  ⟨rfl, fun j h => by cases j <;> first | rfl | exact absurd h (by decide), rfl⟩

theorem witness_LinesAreNeverReadBack :
    State.reset.SameButLevels (State.reset.driveLine .one .high) ∧ ∃ t, step State.reset = .next t :=
  ⟨⟨rfl, rfl, rfl, rfl, rfl, rfl, rfl, rfl, rfl, fun k => by cases k <;> rfl⟩, _, rfl⟩

theorem witness_StepForWithoutDelay :
    { State.reset with hasDelay := false }.ctrl = .idle ∧ { State.reset with hasDelay := false }.hasDelay = false :=
  ⟨rfl, rfl⟩

theorem witness_StepForZeroSteps : State.reset.ctrl = .idle ∧ State.reset.hasDelay = true := ⟨rfl, rfl⟩

theorem witness_StepForSuccess :
    State.reset.ctrl = .idle ∧ State.reset.hasDelay = true ∧ State.reset.RunOk (4294967295#32).toNat ∧
      State.reset.RunOk (0#32).toNat := ⟨rfl, rfl, reset_runOk _, reset_runOk _⟩

theorem witness_StepForAbortsAtFailure_first :
    firstTwoFail.ctrl = .idle ∧ firstTwoFail.hasDelay = true ∧ 0 < (3#32).toNat ∧ firstTwoFail.RunOk 0 ∧
      firstTwoFail.FirstNotOkAfter 0 .one (.answered (.fail 0x11)) :=
  ⟨rfl, rfl, by decide, ⟨fun _ _ h => absurd h (by omega), fun _ h => absurd h (by omega)⟩,
    fun j h => by cases j <;> exact absurd h (by decide), rfl⟩

theorem witness_StepForAbortsAtFailure_later :
    thirdFailsSecond.ctrl = .idle ∧ thirdFailsSecond.hasDelay = true ∧ 1 < (10#32).toNat ∧ thirdFailsSecond.RunOk 1 ∧
      thirdFailsSecond.FirstNotOkAfter 1 .three (.answered (.fail 0x2a)) := by
  refine ⟨rfl, rfl, by decide, ⟨fun k i h => ?_, fun i _ => rfl⟩, fun j h => ?_, rfl⟩
  · obtain rfl : i = 0 := by omega
    cases k <;> rfl
  · cases j <;> first | rfl | exact absurd h (by decide)

theorem witness_StepForUnansweredStaysBusy_write :
    (scripted [] [.silent] [] [] []).ctrl = .idle ∧ (scripted [] [.silent] [] [] []).hasDelay = true ∧
      0 < (1#32).toNat ∧ (scripted [] [.silent] [] [] []).RunOk 0 ∧
      (scripted [] [.silent] [] [] []).FirstNotOkAfter 0 .two .silent :=
  ⟨rfl, rfl, by decide, ⟨fun _ _ h => absurd h (by omega), fun _ h => absurd h (by omega)⟩,
    fun j h => by cases j <;> first | rfl | exact absurd h (by decide), rfl⟩

theorem witness_StepForUnansweredStaysBusy_wait :
    (scripted [] [] [] [] [.silent]).ctrl = .idle ∧ (scripted [] [] [] [] [.silent]).hasDelay = true ∧
      0 < (1#32).toNat ∧ (scripted [] [] [] [] [.silent]).RunOk 0 ∧
      (∀ k, ((scripted [] [] [] [] [.silent]).outs.get k).replies.nth 0 = .answered .ok) ∧
      (scripted [] [] [] [] [.silent]).waits.nth 0 = .silent :=
  ⟨rfl, rfl, by decide, ⟨fun _ _ h => absurd h (by omega), fun _ h => absurd h (by omega)⟩,
    fun k => by cases k <;> rfl, rfl⟩

theorem witness_RunEqualsManualLoop :
    thirdFailsSecond.ctrl = .idle ∧ thirdFailsSecond.hasDelay = true ∧
      ∀ i, i < (10#32).toNat → thirdFailsSecond.waits.nth i = .done := ⟨rfl, rfl, fun _ _ => rfl⟩

theorem witness_SmallStepsReachWholeCommand : thirdFailsSecond.ctrl = .idle := rfl

theorem witness_FairCommandsRespond : State.reset.ctrl = .idle ∧ State.reset.Fair :=
  ⟨rfl, fun k i => by cases k <;> nofun, fun i => nofun⟩

theorem witness_StepKeepsRunInv :
    { State.reset with ctrl := .write .one 1 0 true }.RunInv ∧
      ∃ t, step { State.reset with ctrl := .write .one 1 0 true } = .next t :=
  ⟨⟨fun j h => by cases j <;> exact absurd h (by decide), fun _ => rfl⟩, _, rfl⟩

theorem witness_CommandFrames : ∃ t, exec .step firstTwoFail = .next t := ⟨_, rfl⟩

theorem witness_RegistersWrittenOnlyByTheirOwners_dir :
    ∃ t, step { State.reset with host := [.command 0x10000000000000001#66] } = .next t ∧ t.dir ≠ State.reset.dir ∧
      decode 0x10000000000000001#66 = .setDir t.dir ∧ t.host = [] := ⟨_, rfl, by decide, by decide, rfl⟩

/-- R147: a `SET_DIR` presented to a busy block does not change `dir`. -/
theorem witness_RegistersWrittenOnlyByTheirOwners_busy :
    ∃ t, step { State.reset with ctrl := .write .one 0 0 false, host := [.command 0x10000000000000001#66] } = .next t ∧
      t.dir = .forward ∧ t.host = [.command 0x10000000000000001#66] := ⟨_, rfl, rfl, rfl⟩

theorem witness_RegistersWrittenOnlyByTheirOwners_cursor :
    (∃ t, step { State.reset with host := [.command 0x20000000000000000#66] } = .next t ∧ t.cursor = 1#3) ∧
      ∃ t, step { State.reset with ctrl := .wait 6 2 } = .next t ∧ t.cursor = 1#3 := ⟨⟨_, rfl, rfl⟩, _, rfl, rfl⟩

theorem witness_RegistersWrittenOnlyByTheirOwners_host :
    (∃ t, step { State.reset with cursor := 5, host := [.reset false] } = .next t ∧ t.cursor = 0#3) ∧
      ∃ t, step { State.reset with host := [.powerCycle] } = .next t := ⟨⟨_, rfl, rfl⟩, _, rfl⟩

theorem witness_OneResponsePerCommand : thirdFailsSecond.ctrl = .idle := rfl

theorem witness_EventsComeFromTableAndOperands : thirdFailsSecond.ctrl = .idle := rfl

theorem witness_LinesShowCursorAfterOk :
    ∃ t, State.reset.ctrl = .idle ∧ exec .step State.reset = .next t ∧ t.ctrl = .idle ∧
      t.trace.getLast? = some (.rsp .ok) := ⟨_, rfl, rfl, rfl, rfl⟩

theorem witness_LinesShowCursorAfterOk_kept :
    { State.reset with outs := State.reset.outs.written State.reset.pattern }.LinesShowPattern := fun k => by
  cases k <;> rfl

theorem witness_PatternAtIsCyclic : (-10 : Int) % 8 = ((6#3 : Cursor).toNat : Int) := by decide

theorem witness_HalfStepNeighboursDifferInOneLine : halfStepWF Config.defaultTable = true := by decide

theorem witness_DecodeEncodeAgree :
    (Instr.stepFor 4294967295 4294967295).WellFormed = true ∧ opField 0x30000000000000000#66 = 0b11#2 := by decide

theorem witness_ReservedOpcodeAndIgnoredBits :
    State.reset.ctrl = .idle ∧ opField 0x1fffffffffffffffe#66 = opField 0x10000000000000000#66 ∧
      opField 0x1fffffffffffffffe#66 = 0b01#2 ∧
      (0x1fffffffffffffffe#66).getLsbD 0 = (0x10000000000000000#66).getLsbD 0 := by decide

theorem witness_StepRunsDecodedCommand :
    State.reset.ctrl = .idle ∧
      { State.reset with host := [.command 0x20000000000000000#66] }.host = .command 0x20000000000000000#66 :: [] :=
  ⟨rfl, rfl⟩

theorem witness_BusyBlockTakesNoCommand :
    { State.reset with ctrl := .wait 0 7, host := [.command 0#66] }.InCommand ∧
      ∃ t, step { State.reset with ctrl := .wait 0 7, host := [.command 0#66] } = .next t :=
  ⟨.inr ⟨_, _, rfl⟩, _, rfl⟩

theorem witness_UnansweredRequestIsStuck_write :
    hungOnLineTwo.InCommand ∧ (∀ strap later, hungOnLineTwo.host ≠ .reset strap :: later) ∧
      (∀ later, hungOnLineTwo.host ≠ .powerCycle :: later) ∧ step hungOnLineTwo = .fault .unansweredRequest :=
  ⟨.inl ⟨_, _, _, _, rfl⟩, nofun, nofun, rfl⟩

theorem witness_UnansweredRequestIsStuck_wait :
    hungWaiting.InCommand ∧ step hungWaiting = .fault .unansweredRequest := ⟨.inr ⟨_, _, rfl⟩, rfl⟩

theorem witness_IdleBlockHoldsItsState : State.reset.ctrl = .idle ∧ State.reset.host = [] := ⟨rfl, rfl⟩

theorem witness_ReversalComesBack :
    State.reset.ctrl = .idle ∧ Direction.reverse ≠ State.reset.dir ∧ State.reset.WritesOk 2 :=
  ⟨rfl, by decide, reset_writesOk 2⟩

theorem witness_StepsWalkTheTable : State.reset.ctrl = .idle ∧ State.reset.WritesOk 9 := ⟨rfl, reset_writesOk 9⟩

/-- A block with no delay capability and a delay script that never answers is no exception. -/
theorem witness_StepsWalkTheTable_noDelay :
    { scripted [] [] [] [] [.silent] with hasDelay := false }.ctrl = .idle ∧
      { scripted [] [] [] [] [.silent] with hasDelay := false }.WritesOk 9 := ⟨rfl, fun k i _ => by cases k <;> rfl⟩

theorem witness_PortsFollowControlState :
    { State.reset with ctrl := .write .one 1 0 true }.RunInv ∧
      { State.reset with ctrl := .write .one 1 0 true }.ctrl ≠ .powerUp :=
  ⟨⟨fun j h => by cases j <;> exact absurd h (by decide), fun _ => rfl⟩, by decide⟩

theorem witness_PortsFollowControlState_wait :
    { State.reset with outs := State.reset.outs.written State.reset.pattern, ctrl := .wait 6 2 }.RunInv :=
  ⟨fun k => by cases k <;> rfl, rfl⟩

theorem witness_BusyStepFollowsControlRows_write :
    (∀ strap later, State.reset.host ≠ .reset strap :: later) ∧ (∀ later, State.reset.host ≠ .powerCycle :: later) ∧
      { State.reset with ctrl := .write .three 1 0 true }.writeReply .three = .answered .ok ∧
      LineNo.num .four = LineNo.num .three + 1 ∧
      { State.reset with ctrl := .write .four 0 0 false }.writeReply .four = .answered .ok ∧
      { firstTwoFail with ctrl := .write .one 0 0 false }.writeReply .one = .answered (.fail 0x11) :=
  ⟨nofun, nofun, rfl, rfl, rfl, rfl⟩

theorem witness_BusyStepFollowsControlRows_wait :
    { State.reset with ctrl := .wait 1 7 }.waits.head = .done ∧ (1 : Count) ≠ 0 ∧
      { State.reset with ctrl := .wait 0 7 }.waits.head = .done := by decide

theorem witness_IdleBlockExecutesEveryCommand : State.reset.ctrl = .idle := rfl

end Witnesses

end Sys2Proof.Tests
end

/-! The forward rules of `step`, one per thing that can happen next: converses of `step_next_cases`. -/

namespace Sys2Proof.Machine

section Steps

variable {s t : State}

theorem step_of_reset {strap : Bool} {later : List HostEvent} (hh : s.host = .reset strap :: later) :
    step s = .next (State.applyReset strap { s with host := later }) := by
  simp [step, fetch, hh]

theorem step_of_powerCycle {later : List HostEvent} (hh : s.host = .powerCycle :: later) :
    step s = .next (State.applyPowerCycle { s with host := later }) := by
  simp [step, fetch, hh]

/-- A block with no command in progress takes the host's command (R50). -/
theorem step_of_command {w : CmdWord} {later : List HostEvent} (hh : s.host = .command w :: later)
    (hc : ¬ s.InCommand) : step s = exec (decode w) { s with host := later } := by
  rcases fetch_cases s with ⟨_, _, h, -⟩ | ⟨_, h, -⟩ | ⟨_, _, h, -, e⟩ | ⟨h, -⟩ | ⟨h, -⟩
  · cases hh.symm.trans h
  · cases hh.symm.trans h
  · cases hh.symm.trans h
    simp only [step, e]
  · cases hh.symm.trans h
  · exact absurd h hc

theorem step_of_nothing (hh : s.host = []) (hc : ¬ s.InCommand) : step s = .next s := by
  rcases fetch_cases s with ⟨_, _, h, -⟩ | ⟨_, h, -⟩ | ⟨_, _, h, -⟩ | ⟨-, -, e⟩ | ⟨h, -⟩
  · cases hh.symm.trans h
  · cases hh.symm.trans h
  · cases hh.symm.trans h
  · simp only [step, e]
  · exact absurd h hc

/-- A busy block that is neither reset nor without power moves by R106. -/
theorem step_of_tick (hc : s.InCommand) (hr : ∀ strap later, s.host ≠ .reset strap :: later)
    (hp : ∀ later, s.host ≠ .powerCycle :: later) (ht : tick s = some t) : step s = .next t := by
  rcases fetch_cases s with ⟨_, _, h, -⟩ | ⟨_, h, -⟩ | ⟨_, _, -, h, -⟩ | ⟨-, h, -⟩ | ⟨-, -, -, e⟩
  · exact absurd h (hr _ _)
  · exact absurd h (hp _)
  · exact absurd hc h
  · exact absurd hc h
  · simp only [step, e, ht, Option.elim]

theorem exec_of_busy (i : Instr) (h : s.InCommand) : exec i s = .next s := by
  rw [exec_eq_accept, State.accept_busy h]

end Steps

end Sys2Proof.Machine

/-! Line levels are never read back (R15, R34 (d)): every operation of the model carries two states that differ at
most in the levels of the lines to two such states. -/

namespace Sys2Proof.Machine

/-- The capabilities will give the same replies; the levels of their lines may differ. -/
def Outputs.SameReplies (o o' : Outputs) : Prop := ∀ k, (o'.get k).replies = (o.get k).replies

theorem Outputs.SameReplies.set {o o' : Outputs} (h : o.SameReplies o') (k : LineNo) {c c' : OutputCap}
    (hc : c'.replies = c.replies) : (o.set k c).SameReplies (o'.set k c') := by
  intro j
  by_cases hj : j = k
  · subst hj
    simpa using hc
  · simpa [Outputs.get_set_other _ _ hj] using h j

theorem Outputs.SameReplies.powerUp {o o' : Outputs} (h : o.SameReplies o') : o.powerUp.SameReplies o'.powerUp := by
  intro k
  cases k with
  | one => exact h .one
  | two => exact h .two
  | three => exact h .three
  | four => exact h .four

namespace State.SameButLevels

variable {s u : State}

theorem of_outs {o : Outputs} (h : s.outs.SameReplies o) : s.SameButLevels { s with outs := o } :=
  ⟨rfl, rfl, rfl, rfl, rfl, rfl, rfl, rfl, rfl, h⟩

theorem eq_withOuts (h : s.SameButLevels u) : ∃ o, s.outs.SameReplies o ∧ u = { s with outs := o } := by
  obtain ⟨hcursor, hdir, hdelay, hctrl, hrom, hwaits, hhost, htrace, hdraws, hreplies⟩ := h
  refine ⟨u.outs, hreplies, ?_⟩
  rw [← hcursor, ← hdir, ← hdelay, ← hctrl, ← hrom, ← hwaits, ← hhost, ← htrace, ← hdraws]

/-- An update that neither reads nor writes the capabilities. -/
theorem map (h : s.SameButLevels u) (f : State → State)
    (hf : ∀ (s : State) (o : Outputs), f { s with outs := o } = { f s with outs := o }) :
    (f s).SameButLevels (f u) := by
  obtain ⟨o, ho, rfl⟩ := h.eq_withOuts
  have keeps : (f s).outs = s.outs := (congrArg State.outs (hf s s.outs) :)
  rw [hf s o]
  exact of_outs (keeps ▸ ho)

theorem popReply (h : s.SameButLevels u) (k : LineNo) : (s.popReply k).SameButLevels (u.popReply k) := by
  obtain ⟨o, ho, rfl⟩ := h.eq_withOuts
  exact of_outs (s := s.popReply k) (ho.set k (congrArg Script.pop (ho k)))

theorem driveLine (h : s.SameButLevels u) (k : LineNo) (v : Level) :
    (s.driveLine k v).SameButLevels (u.driveLine k v) := by
  obtain ⟨o, ho, rfl⟩ := h.eq_withOuts
  exact of_outs (s := s.driveLine k v) (ho.set k (ho k))

theorem disturbLine (h : s.SameButLevels u) (k : LineNo) : (s.disturbLine k).SameButLevels (u.disturbLine k) := by
  obtain ⟨o, ho, rfl⟩ := h.eq_withOuts
  exact of_outs (s := s.disturbLine k) (ho.set k (ho k))

theorem pattern_eq (h : s.SameButLevels u) : u.pattern = s.pattern := by
  obtain ⟨o, -, rfl⟩ := h.eq_withOuts
  rfl

theorem writeReply_eq (h : s.SameButLevels u) (k : LineNo) : u.writeReply k = s.writeReply k := by
  obtain ⟨o, ho, rfl⟩ := h.eq_withOuts
  exact congrArg Script.head (ho k)

theorem ctrl_eq (h : s.SameButLevels u) : u.ctrl = s.ctrl := by
  obtain ⟨o, -, rfl⟩ := h.eq_withOuts
  rfl

theorem hasDelay_eq (h : s.SameButLevels u) : u.hasDelay = s.hasDelay := by
  obtain ⟨o, -, rfl⟩ := h.eq_withOuts
  rfl

theorem waits_eq (h : s.SameButLevels u) : u.waits = s.waits := by
  obtain ⟨o, -, rfl⟩ := h.eq_withOuts
  rfl

theorem host_eq (h : s.SameButLevels u) : u.host = s.host := by
  obtain ⟨o, -, rfl⟩ := h.eq_withOuts
  rfl

theorem inCommand_iff (h : s.SameButLevels u) : u.InCommand ↔ s.InCommand := by
  rw [State.InCommand, State.InCommand, h.ctrl_eq]

/-- The two writes get the same answer. -/
theorem outWrite (h : s.SameButLevels u) (k : LineNo) (v : Level) :
    ∃ a s' u', s.outWrite k v = (a, s') ∧ u.outWrite k v = (a, u') ∧ s'.SameButLevels u' := by
  rcases s.outWrite_cases k v with ⟨hr, e⟩ | ⟨c, hr, e⟩ | ⟨hr, e⟩
  · exact ⟨_, _, _, e, State.outWrite_of_ok ((h.writeReply_eq k).trans hr),
      ((h.popReply k).driveLine k v).map (State.record _) fun _ _ => rfl⟩
  · exact ⟨_, _, _, e, State.outWrite_of_fail ((h.writeReply_eq k).trans hr),
      ((h.popReply k).disturbLine k).map (State.record _) fun _ _ => rfl⟩
  · exact ⟨_, _, _, e, State.outWrite_of_silent ((h.writeReply_eq k).trans hr), h⟩

end State.SameButLevels

/-- Two bodies of a step end in the same way, in states that differ at most in the levels of the lines. -/
inductive BodyEnd.SameButLevels : BodyEnd → BodyEnd → Prop where
  | stepped {s u : State} : s.SameButLevels u → SameButLevels (.stepped s) (.stepped u)
  | writeFailed (k : LineNo) (c : Cause) {s u : State} : s.SameButLevels u →
      SameButLevels (.writeFailed k c s) (.writeFailed k c u)
  | unanswered (k : LineNo) {s u : State} : s.SameButLevels u → SameButLevels (.unanswered k s) (.unanswered k u)

namespace State.SameButLevels

variable {s u : State}

theorem writeLines (h : s.SameButLevels u) (p : Pattern) (ks : List LineNo) :
    (s.writeLines p ks).SameButLevels (u.writeLines p ks) := by
  induction ks generalizing s u with
  | nil => exact .stepped h
  | cons k ks ih =>
    obtain ⟨a, s', u', hs, hu, h'⟩ := h.outWrite k (lineBit k p)
    rw [State.writeLines, State.writeLines, hs, hu]
    match a with
    | .answered .ok => exact ih h'
    | .answered (.fail c) => exact .writeFailed k c h'
    | .silent => exact .unanswered k h'

theorem advanceCursor (h : s.SameButLevels u) : s.advanceCursor.SameButLevels u.advanceCursor :=
  h.map State.advanceCursor fun _ _ => rfl

theorem respond (h : s.SameButLevels u) (r : Response) : (s.respond r).SameButLevels (u.respond r) :=
  h.map (State.respond r) fun _ _ => rfl

theorem withCtrl (h : s.SameButLevels u) (c : Ctrl) :
    ({ s with ctrl := c } : State).SameButLevels { u with ctrl := c } :=
  h.map (fun s => { s with ctrl := c }) fun _ _ => rfl

theorem withHost (h : s.SameButLevels u) (later : List HostEvent) :
    ({ s with host := later } : State).SameButLevels { u with host := later } :=
  h.map (fun s => { s with host := later }) fun _ _ => rfl

theorem requestWait (h : s.SameButLevels u) (m : DelayMs) : (s.requestWait m).SameButLevels (u.requestWait m) :=
  h.map (State.requestWait m) fun _ _ => rfl

theorem endWait (h : s.SameButLevels u) : s.endWait.SameButLevels u.endWait :=
  h.map State.endWait fun _ _ => rfl

theorem stepBody (h : s.SameButLevels u) : s.stepBody.SameButLevels u.stepBody := by
  rw [State.stepBody, State.stepBody, h.advanceCursor.pattern_eq]
  exact h.advanceCursor.writeLines _ _

theorem stepEffect (h : s.SameButLevels u) : (stepEffect s).SameButLevels (stepEffect u) := by
  have hb := h.stepBody
  unfold Machine.stepEffect
  generalize s.stepBody = a, u.stepBody = b at hb
  cases hb with
  | stepped h => exact h.respond _
  | writeFailed k c h => exact h.respond _
  | unanswered k h => exact h.withCtrl _

theorem runLoop (h : s.SameButLevels u) (m : DelayMs) (n : Nat) : (runLoop m n s).SameButLevels (runLoop m n u) := by
  induction n generalizing s u with
  | zero => exact h.respond _
  | succ n ih =>
    have hb := h.stepBody
    rw [Machine.runLoop, Machine.runLoop]
    generalize s.stepBody = a, u.stepBody = b at hb
    cases hb with
    | writeFailed k c h => exact h.respond _
    | unanswered k h => exact h.withCtrl _
    | @stepped s' u' h =>
      simp only [h.waits_eq]
      cases s'.waits.head with
      | done => exact ih (h.requestWait m).endWait
      | silent => exact (h.requestWait m).withCtrl _

theorem stepForEffect (h : s.SameButLevels u) (count : Count) (m : DelayMs) :
    (stepForEffect count m s).SameButLevels (stepForEffect count m u) := by
  rw [Machine.stepForEffect, Machine.stepForEffect, h.hasDelay_eq]
  split
  · exact h.runLoop m _
  · exact h.respond _

theorem effectOf (h : s.SameButLevels u) (i : Instr) : (effectOf i s).SameButLevels (effectOf i u) := by
  cases i with
  | setDir d => exact h.map (setDirEffect d) fun _ _ => rfl
  | step => exact h.stepEffect
  | stepFor count m => exact h.stepForEffect count m
  | illegal => exact h.respond _

theorem exec {i : Instr} {t : State} (h : s.SameButLevels u) (e : exec i s = .next t) :
    ∃ v, Machine.exec i u = .next v ∧ t.SameButLevels v := by
  rcases exec_next_cases e with ⟨hc, rfl⟩ | ⟨hc, rfl⟩
  · exact ⟨_, exec_of_idle i (h.ctrl_eq.trans hc), h.effectOf i⟩
  · exact ⟨u, exec_of_busy i (h.inCommand_iff.mpr hc), h⟩

theorem tickWrite {t : State} (h : s.SameButLevels u) {k : LineNo} {rem : Count} {m : DelayMs} {run : Bool}
    (e : tickWrite k rem m run s = some t) : ∃ v, Machine.tickWrite k rem m run u = some v ∧ t.SameButLevels v := by
  obtain ⟨a, s', u', hs, hu, h'⟩ := h.outWrite k (lineBit k s.pattern)
  rw [Machine.tickWrite, hs] at e
  rw [Machine.tickWrite, h.pattern_eq, hu]
  match a with
  | .silent => cases e
  | .answered (.fail c) =>
    cases e
    exact ⟨_, rfl, h'.respond _⟩
  | .answered .ok =>
    dsimp only at e ⊢
    cases hk : k.next? with
    | some k' =>
      rw [hk] at e
      cases e
      exact ⟨_, rfl, h'.withCtrl _⟩
    | none =>
      rw [hk] at e
      cases run with
      | true =>
        cases e
        exact ⟨_, rfl, (h'.requestWait m).withCtrl _⟩
      | false =>
        cases e
        exact ⟨_, rfl, h'.respond _⟩

theorem tickWait {t : State} (h : s.SameButLevels u) {rem : Count} {m : DelayMs} (e : tickWait rem m s = some t) :
    ∃ v, Machine.tickWait rem m u = some v ∧ t.SameButLevels v := by
  rw [Machine.tickWait] at e ⊢
  rw [h.waits_eq]
  cases hw : s.waits.head with
  | silent =>
    rw [hw] at e
    cases e
  | done =>
    rw [hw] at e
    dsimp only at e ⊢
    split at e
    · cases e
      exact ⟨_, if_pos ‹_›, h.endWait.respond _⟩
    · cases e
      exact ⟨_, if_neg ‹_›, h.endWait.advanceCursor.withCtrl _⟩

theorem tick {t : State} (h : s.SameButLevels u) (e : tick s = some t) :
    ∃ v, Machine.tick u = some v ∧ t.SameButLevels v := by
  rw [Machine.tick] at e ⊢
  rw [h.ctrl_eq]
  cases hc : s.ctrl <;> rw [hc] at e
  case powerUp => cases e
  case idle => cases e
  case write => exact h.tickWrite e
  case wait => exact h.tickWait e

theorem abandonRequest (h : s.SameButLevels u) : s.abandonRequest.SameButLevels u.abandonRequest := by
  rw [State.abandonRequest, State.abandonRequest, h.ctrl_eq]
  cases s.ctrl with
  | powerUp => exact h
  | idle => exact h
  | write k => exact (h.popReply k).disturbLine k
  | wait => exact h.endWait

theorem applyReset (h : s.SameButLevels u) (strap : Bool) : (s.applyReset strap).SameButLevels (u.applyReset strap) :=
  h.abandonRequest.map
    (fun s => { s with cursor := 0#3, dir := .forward, hasDelay := strap, ctrl := .idle }) fun _ _ => rfl

theorem applyPowerCycle (h : s.SameButLevels u) : s.applyPowerCycle.SameButLevels u.applyPowerCycle := by
  obtain ⟨-, -, -, -, hrom, hwaits, hhost, htrace, hdraws, hreplies⟩ := h.abandonRequest
  obtain ⟨o, -, rfl⟩ := h.eq_withOuts
  exact ⟨rfl, rfl, rfl, rfl, hrom, hwaits, hhost, htrace, congrArg (· + 1) hdraws,
    Outputs.SameReplies.powerUp hreplies⟩

end State.SameButLevels

/-- Settles O9, by one rule per operation: each thing a step can do carries two states that differ at most in the levels
of the lines to two such states. -/
theorem linesAreNeverReadBack : Obligations.LinesAreNeverReadBack := by
  intro s u t h e
  rcases step_next_cases e with
    ⟨strap, later, hh, rfl⟩ | ⟨later, hh, rfl⟩ | ⟨w, later, hh, hc, e⟩ | ⟨hh, hc, rfl⟩ | ⟨hc, hr, hp, e⟩
  · exact ⟨_, step_of_reset (h.host_eq.trans hh), (h.withHost later).applyReset strap⟩
  · exact ⟨_, step_of_powerCycle (h.host_eq.trans hh), (h.withHost later).applyPowerCycle⟩
  · obtain ⟨v, hv, hsame⟩ := (h.withHost later).exec e
    exact ⟨v, (step_of_command (h.host_eq.trans hh) (h.inCommand_iff.not.mpr hc)).trans hv, hsame⟩
  · exact ⟨u, step_of_nothing (h.host_eq.trans hh) (h.inCommand_iff.not.mpr hc), h⟩
  · obtain ⟨v, hv, hsame⟩ := h.tick e
    exact ⟨v, step_of_tick (h.inCommand_iff.mpr hc) (h.host_eq ▸ hr) (h.host_eq ▸ hp) hv, hsame⟩

end Sys2Proof.Machine

/-! What a command and a step leave unchanged, and who writes which register (R10 to R14, R31, R105, R147). -/

namespace Sys2Proof.Machine

/-- What every part of a step and of a run keeps: the registers it has no business with, the host's list, and the trace
so far. -/
structure State.Frame (s t : State) : Prop where
  rom : t.rom = s.rom
  hasDelay : t.hasDelay = s.hasDelay
  dir : t.dir = s.dir
  host : t.host = s.host
  trace : s.trace <+: t.trace

section Frame

variable {s t u : State}

theorem State.Frame.refl (s : State) : s.Frame s := ⟨rfl, rfl, rfl, rfl, List.prefix_refl _⟩

theorem State.Frame.trans (h : s.Frame t) (h' : t.Frame u) : s.Frame u :=
  ⟨h'.rom.trans h.rom, h'.hasDelay.trans h.hasDelay, h'.dir.trans h.dir, h'.host.trans h.host, h.trace.trans h'.trace⟩

theorem State.Frame.withCtrl (h : s.Frame t) (c : Ctrl) : s.Frame { t with ctrl := c } :=
  ⟨h.rom, h.hasDelay, h.dir, h.host, h.trace⟩

theorem State.Frame.respond (h : s.Frame t) (r : Response) : s.Frame (t.respond r) :=
  h.trans ⟨rfl, rfl, rfl, rfl, List.prefix_append _ _⟩

theorem State.wholeStep_frame (s : State) : s.Frame s.wholeStep := ⟨rfl, rfl, rfl, rfl, List.prefix_append _ _⟩

theorem State.partStep_frame (k : LineNo) (s : State) : s.Frame (s.partStep k) :=
  ⟨rfl, rfl, rfl, rfl, List.prefix_append _ _⟩

theorem State.failedStep_frame (k : LineNo) (c : Cause) (s : State) : s.Frame (s.failedStep k c) :=
  (s.partStep_frame k).trans ⟨rfl, rfl, rfl, rfl, List.prefix_append _ _⟩

theorem State.requestWait_frame (m : DelayMs) (s : State) : s.Frame (s.requestWait m) :=
  ⟨rfl, rfl, rfl, rfl, List.prefix_append _ _⟩

theorem AfterSteps.frame {m : DelayMs} {n : Nat} (a : AfterSteps m n s t) : s.Frame t :=
  ⟨a.rom, a.hasDelay, a.dir, a.host, a.trace ▸ List.prefix_append _ _⟩

theorem StepEnd.frame (h : StepEnd s t) : s.Frame t := by
  cases h with
  | ok => exact s.wholeStep_frame.respond _
  | failed k c => exact (s.failedStep_frame k c).respond _
  | unanswered k => exact (s.partStep_frame k).withCtrl _

theorem RunEnd.frame {m : DelayMs} {n : Nat} (h : RunEnd m n s t) : s.Frame t := by
  cases h with
  | ok => exact (afterSteps m n s).frame.respond _
  | failed j k c => exact ((afterSteps m j s).frame.trans (State.failedStep_frame k c _)).respond _
  | writeUnanswered j k => exact ((afterSteps m j s).frame.trans (State.partStep_frame k _)).withCtrl _
  | waitUnanswered j =>
    exact (((afterSteps m j s).frame.trans (State.wholeStep_frame _)).trans (State.requestWait_frame m _)).withCtrl _

theorem stepForEffect_frame (count : Count) (m : DelayMs) (s : State) : s.Frame (stepForEffect count m s) := by
  rcases hd : s.hasDelay with _ | _
  · rw [stepForEffect_of_noDelay hd]
    exact (State.Frame.refl s).respond _
  · rw [stepForEffect_of_delay hd]
    exact (runLoop_end m _ s).frame

theorem StepEnd.waits (h : StepEnd s t) : t.waits = s.waits := by cases h <;> rfl

end Frame

/-- Every accepted command but `SET_DIR` keeps the frame. -/
theorem effectOf_frame {i : Instr} (h : ∀ d, i ≠ .setDir d) (s : State) : s.Frame (effectOf i s) := by
  cases i with
  | setDir d => exact absurd rfl (h d)
  | step => exact (stepEffect_end s).frame
  | stepFor count m => exact stepForEffect_frame count m s
  | illegal => exact (State.Frame.refl s).respond _

/-- Only a `STEP_FOR` uses up a wait's reply. -/
theorem effectOf_waits {i : Instr} (h : ∀ count m, i ≠ .stepFor count m) (s : State) :
    (effectOf i s).waits = s.waits := by
  cases i with
  | setDir d => rfl
  | step => exact (stepEffect_end s).waits
  | stepFor count m => exact absurd rfl (h count m)
  | illegal => rfl

/-- `SET_DIR` and `ILLEGAL` make no step. -/
theorem effectOf_makes_no_step {i : Instr} (h : (∃ d, i = .setDir d) ∨ i = .illegal) (s : State) :
    (effectOf i s).cursor = s.cursor ∧ (effectOf i s).outs = s.outs ∧ (effectOf i s).draws = s.draws := by
  obtain ⟨d, rfl⟩ | rfl := h <;> exact ⟨rfl, rfl, rfl⟩

/-- Settles O20: `SET_DIR` by what it writes; the other commands by the ways a step and a run can end, each of which
keeps the frame. -/
theorem commandFrames : Obligations.CommandFrames := by
  intro i s t e
  rcases exec_next_cases e with ⟨-, rfl⟩ | ⟨-, rfl⟩
  · by_cases hi : ∃ d, i = .setDir d
    · obtain ⟨d, rfl⟩ := hi
      exact ⟨rfl, rfl, rfl, ⟨_, rfl⟩, fun h => absurd rfl (h d), fun _ => rfl, fun _ => ⟨rfl, rfl, rfl⟩⟩
    · have f := effectOf_frame (not_exists.mp hi) s
      obtain ⟨es, htrace⟩ := f.trace
      exact ⟨f.rom, f.hasDelay, f.host, ⟨es, htrace.symm⟩, fun _ => f.dir, fun h => effectOf_waits h s,
        fun h => effectOf_makes_no_step h s⟩
  · exact ⟨rfl, rfl, rfl, ⟨[], by simp⟩, fun _ => rfl, fun _ => rfl, fun _ => ⟨rfl, rfl, rfl⟩⟩

@[simp] theorem State.abandonRequest_rom (s : State) : s.abandonRequest.rom = s.rom := by
  unfold State.abandonRequest
  cases s.ctrl <;> rfl

/-- `SET_DIR` alone writes `dir`, and writes its operand. -/
theorem exec_dir {i : Instr} {s t : State} (e : exec i s = .next t) :
    t.dir = s.dir ∨ i = .setDir t.dir := by
  obtain ⟨-, -, -, -, hdir, -⟩ := commandFrames i s t e
  cases i with
  | setDir d =>
    rcases exec_next_cases e with ⟨-, rfl⟩ | ⟨-, rfl⟩
    · exact .inr rfl
    · exact .inl rfl
  | step => exact .inl (hdir nofun)
  | stepFor count m => exact .inl (hdir nofun)
  | illegal => exact .inl (hdir nofun)

/-- `STEP` and `STEP_FOR` alone write `cursor`. -/
theorem exec_cursor {i : Instr} {s t : State} (e : exec i s = .next t) :
    t.cursor = s.cursor ∨ i = .step ∨ ∃ count m, i = .stepFor count m := by
  obtain ⟨-, -, -, -, -, -, noStep⟩ := commandFrames i s t e
  cases i with
  | setDir d => exact .inl (noStep (.inl ⟨d, rfl⟩)).1
  | step => exact .inr (.inl rfl)
  | stepFor count m => exact .inr (.inr ⟨count, m, rfl⟩)
  | illegal => exact .inl (noStep (.inr rfl)).1

/-- Settles O21: by what a step can do; a command by its frame, a busy block's transition by `tick_frame` and
`tick_cursor`. -/
theorem registersWrittenOnlyByTheirOwners : Obligations.RegistersWrittenOnlyByTheirOwners := by
  intro s t e
  rcases step_next_cases e with
    ⟨strap, later, hh, rfl⟩ | ⟨later, hh, rfl⟩ | ⟨w, later, hh, hc, e⟩ | ⟨-, -, rfl⟩ | ⟨-, -, -, e⟩
  · exact ⟨State.abandonRequest_rom _, .inr (.inl ⟨strap, later, hh, rfl, rfl, rfl⟩)⟩
  · exact ⟨State.abandonRequest_rom _, .inl ⟨later, hh⟩⟩
  · obtain ⟨hrom, hdelay, hhost, -⟩ := commandFrames _ _ _ e
    refine ⟨hrom, .inr (.inr ⟨hdelay, ?_, ?_⟩)⟩
    · exact (exec_dir e).imp_right fun hi => ⟨w, later, hh, hc, hhost, hi⟩
    · exact (exec_cursor e).imp_right fun hi => .inr ⟨w, later, hh, hc, hhost, hi⟩
  · exact ⟨rfl, .inr (.inr ⟨rfl, .inl rfl, .inl rfl⟩)⟩
  · obtain ⟨hrom, hdelay, hdir, -⟩ := tick_frame e
    exact ⟨hrom, .inr (.inr ⟨hdelay, .inl hdir, (tick_cursor e).imp_right .inl⟩)⟩

end Sys2Proof.Machine

/-! The lines after a command that answered OK (R18 (d)), and the state after reset (R19). -/

namespace Sys2Proof.Machine

section Shows

variable {s t : State}

/-- A response writes no line and moves no cursor. -/
theorem State.LinesShowPattern.respond (h : s.LinesShowPattern) (r : Response) : (s.respond r).LinesShowPattern := h

theorem respond_getLast?_ne_ok {r : Response} (hr : r ≠ .ok) : (s.respond r).trace.getLast? ≠ some (.rsp .ok) := by
  simpa using hr

/-- A `STEP` that answers OK has written the cursor's pattern. -/
theorem StepEnd.shows_of_ok (h : StepEnd s t) (hc : t.ctrl = .idle) (hok : t.trace.getLast? = some (.rsp .ok)) :
    t.LinesShowPattern := by
  cases h with
  | ok => exact s.wholeStep_shows.respond _
  | failed k c => exact absurd hok (respond_getLast?_ne_ok nofun)
  | unanswered k => cases hc

/-- A run that answers OK has written the cursor's pattern, if it made a step or the lines showed it before. -/
theorem RunEnd.shows_of_ok {m : DelayMs} {n : Nat} (h : RunEnd m n s t) (hc : t.ctrl = .idle)
    (hok : t.trace.getLast? = some (.rsp .ok)) (hn : 0 < n ∨ s.LinesShowPattern) : t.LinesShowPattern := by
  cases h with
  | ok =>
    rcases Nat.eq_zero_or_pos n with rfl | pos
    · exact (hn.resolve_left (Nat.lt_irrefl 0)).respond _
    · exact ((afterSteps m n s).shows pos).respond _
  | failed j k c => exact absurd hok (respond_getLast?_ne_ok nofun)
  | writeUnanswered j k => cases hc
  | waitUnanswered j => cases hc

theorem count_toNat_pos {count : Count} (h : count ≠ 0) : 0 < count.toNat :=
  Nat.pos_of_ne_zero fun h0 => h (BitVec.eq_of_toNat_eq h0)

end Shows

/-- Settles O24: by the ways a step and a run can end; of those only the OK ones end in Idle with OK. -/
theorem linesShowCursorAfterOk : Obligations.LinesShowCursorAfterOk := by
  intro i s t hidle e hc hok h
  obtain rfl : effectOf i s = t := by simpa [exec_of_idle i hidle] using e
  cases i with
  | setDir d => exact h.resolve_left (by simp)
  | step => exact (stepEffect_end s).shows_of_ok hc hok
  | stepFor count m =>
    have hn : 0 < count.toNat ∨ s.LinesShowPattern := h.imp_left fun h => count_toNat_pos (by simpa using h)
    rcases hd : s.hasDelay with _ | _
    · rw [effectOf, stepForEffect_of_noDelay hd] at hok
      exact absurd hok (respond_getLast?_ne_ok nofun)
    · rw [effectOf, stepForEffect_of_delay hd] at hc hok ⊢
      exact (runLoop_end m _ s).shows_of_ok hc hok hn
  | illegal => exact absurd hok (respond_getLast?_ne_ok nofun)

/-- Settles O1: by evaluation of the reset state; a reset event of an idle block only latches the strap. -/
theorem resetStateIsAsSpecified : Obligations.ResetStateIsAsSpecified := by
  have lines (k : LineNo) : State.reset.line k = .unwritten := by cases k <;> rfl
  have again (strap : Bool) :
      step { State.reset with host := [.reset strap] } = .next { State.reset with hasDelay := strap } :=
    step_of_reset rfl
  exact ⟨rfl, rfl, rfl, rfl, lines, rfl, again⟩

end Sys2Proof.Machine

/-! Encoding: a word and its slices determine each other, so `encode` and `decode` agree (R52, R57), and a response word
and its fields (R56). -/

namespace Sys2Proof.Machine

/-- Two words side by side are this word exactly when they are its slices. -/
theorem append_eq_iff_slices {a b : Nat} {x : BitVec a} {y : BitVec b} {w : BitVec (a + b)} :
    x ++ y = w ↔ w.extractLsb' b a = x ∧ w.extractLsb' 0 b = y := by
  constructor
  · rintro rfl
    exact ⟨BitVec.extractLsb'_append_eq_left, BitVec.extractLsb'_append_eq_right⟩
  · rintro ⟨rfl, rfl⟩
    exact append_of_slices a b w

section CommandWord

/-- A command word of format D is its opcode, its 63 ignored bits and its field `d` (R52). -/
theorem formatD_eq_iff {op : BitVec 2} {ignored : BitVec 63} {d : BitVec 1} {w : CmdWord} :
    op ++ (ignored ++ d) = w ↔ opField w = op ∧ w.extractLsb' 1 63 = ignored ∧ dField w = d := by
  rw [append_eq_iff_slices (a := 2) (b := 64), eq_comm (a := BitVec.extractLsb' 0 64 w),
    append_eq_iff_slices (a := 63) (b := 1), slice_of_slice w 0 64 1 63 (by decide),
    slice_of_slice w 0 64 0 1 (by decide)]
  rfl

/-- A command word of format R is its opcode and its fields `count` and `delay_ms` (R52). -/
theorem formatR_eq_iff {op : BitVec 2} {count : Count} {m : DelayMs} {w : CmdWord} :
    op ++ (count ++ m) = w ↔ opField w = op ∧ countField w = count ∧ delayField w = m := by
  rw [append_eq_iff_slices (a := 2) (b := 64), eq_comm (a := BitVec.extractLsb' 0 64 w),
    append_eq_iff_slices (a := 32) (b := 32), slice_of_slice w 0 64 32 32 (by decide),
    slice_of_slice w 0 64 0 32 (by decide)]
  rfl

/-- A command word of format Z is its opcode and its 64 ignored bits (R52). -/
theorem formatZ_eq_iff {op : BitVec 2} {ignored : BitVec 64} {w : CmdWord} :
    op ++ ignored = w ↔ opField w = op ∧ w.extractLsb' 0 64 = ignored :=
  append_eq_iff_slices (a := 2) (b := 64)

/-- `decode` is a left inverse of `encode` (R57). -/
theorem decode_of_encode {i : Instr} {w : CmdWord} (h : encode i = some w) : decode w = i := by
  cases i with
  | setDir d =>
    obtain ⟨hop, -, hd⟩ := formatD_eq_iff.mp (Option.some.inj h)
    rw [decode_setDir hop, hd, directionOfBit_directionBit]
  | step => exact decode_step (formatZ_eq_iff.mp (Option.some.inj h)).1
  | stepFor count m =>
    obtain ⟨hop, hcount, hdelay⟩ := formatR_eq_iff.mp (Option.some.inj h)
    rw [decode_stepFor hop, hcount, hdelay]
  | illegal => cases h

/-- Every command a host may issue has a word. -/
theorem encode_of_wellFormed {i : Instr} (h : i.WellFormed = true) : ∃ w, encode i = some w := by
  cases i with
  | setDir d => exact ⟨_, rfl⟩
  | step => exact ⟨_, rfl⟩
  | stepFor count m => exact ⟨_, rfl⟩
  | illegal => cases h

/-- `encode` gives back the words whose ignored bits are 0 and whose opcode is not reserved (R57). -/
theorem encode_decode_iff (w : CmdWord) :
    encode (decode w) = some w ↔
      (opField w = 0b01#2 ∧ w.extractLsb' 1 63 = 0#63) ∨ (opField w = 0b10#2 ∧ w.extractLsb' 0 64 = 0#64) ∨
        opField w = 0b11#2 := by
  rcases opField_cases w with hop | hop | hop | hop
  · simp [decode_illegal hop, encode, hop]
  · rw [decode_setDir hop, encode, directionBit_directionOfBit, Option.some_inj, formatD_eq_iff]
    simp [hop]
  · rw [decode_step hop, encode, Option.some_inj, formatZ_eq_iff]
    simp [hop]
  · rw [decode_stepFor hop, encode, Option.some_inj, formatR_eq_iff]
    simp [hop]

end CommandWord

/-- Settles O28: the word of a command has the command's fields as its slices, and `decode` reads nothing else. -/
theorem decodeEncodeAgree : Obligations.DecodeEncodeAgree := by
  refine ⟨fun i h => ?_, encode_decode_iff, fun w => ⟨fun hop => ?_, decode_step, decode_stepFor, decode_illegal⟩⟩
  · obtain ⟨w, hw⟩ := encode_of_wellFormed h
    exact ⟨w, hw, decode_of_encode hw⟩
  · rw [decode_setDir hop, directionOfBit_dField]

/-- Settles O29: by evaluation of the decoder on the five words. -/
theorem specWordsDecode : Obligations.SpecWordsDecode := by
  unfold Obligations.SpecWordsDecode
  decide

section ResponseWord

/-- A response word is its `status`, its `line` and its `cause` (R56). -/
theorem responseWord_eq_iff {r : Response} {w : RspWord} :
    r.word = w ↔
      w.extractLsb' 11 2 = r.status ∧ w.extractLsb' 8 3 = r.lineField ∧ w.extractLsb' 0 8 = r.causeField := by
  rw [Response.word, append_eq_iff_slices (a := 2) (b := 11), eq_comm (a := BitVec.extractLsb' 0 11 w),
    append_eq_iff_slices (a := 3) (b := 8), slice_of_slice w 0 11 8 3 (by decide),
    slice_of_slice w 0 11 0 8 (by decide)]

/-- The lines have different numbers in a response. -/
theorem lineNum_inj {j k : LineNo} (h : BitVec.ofNat 3 j.num = BitVec.ofNat 3 k.num) : j = k := by
  revert h
  cases j <;> cases k <;> decide

/-- The number of a line is 1 to 4 (R7, R121). -/
theorem lineNum_bounds (k : LineNo) : 1 ≤ k.num ∧ k.num ≤ 4 := by
  cases k <;> decide

/-- A response is known by its fields: `status` names its kind, `line` and `cause` what a failed write adds. -/
theorem response_eq_of_fields {r q : Response} (hs : r.status = q.status) (hl : r.lineField = q.lineField)
    (hc : r.causeField = q.causeField) : r = q := by
  -- Two responses of different kinds differ in `status`; of the four kinds only a failed write has more fields.
  cases r <;> cases q
  case outputWriteFailed.outputWriteFailed j c k d =>
    obtain rfl := lineNum_inj hl
    obtain rfl : c = d := hc
    rfl
  all_goals simp [Response.status] at hs ⊢

end ResponseWord

/-- Settles O31: the fields of a response are the slices of its word, and a response is known by its fields. -/
theorem responseWordFields : Obligations.ResponseWordFields := by
  have fields (r : Response) := responseWord_eq_iff.mp (rfl : r.word = r.word)
  refine ⟨fields, fun r q h => ?_, fun k c => ?_, by decide, by decide, by decide⟩
  · obtain ⟨rs, rl, rc⟩ := fields r
    obtain ⟨qs, ql, qc⟩ := responseWord_eq_iff.mp h.symm
    exact response_eq_of_fields (rs.symm.trans qs) (rl.symm.trans ql) (rc.symm.trans qc)
  · obtain ⟨hs, hl, hc⟩ := fields (.outputWriteFailed k c)
    exact ⟨hs, hl, hc, lineNum_bounds k⟩

end Sys2Proof.Machine

/-! The responses of a command (R50, R56, R121), the command a step runs (R50), and the ports as a view of the control
state (R16, R51, R109). -/

namespace Sys2Proof.Machine

section Responses

variable {s t u : State} {i : Instr}

/-- The trace has grown, and by no response. -/
def State.NoResponseTo (s t : State) : Prop := ∃ es, t.trace = s.trace ++ es ∧ ∀ e ∈ es, e.isRsp = false

/-- The command has ended with one last response that R121 allows it, or is left unanswered with none (R50, R121). -/
def RespondsOnce (i : Instr) (s t : State) : Prop :=
  ∃ es, (∀ e ∈ es, e.isRsp = false) ∧
    ((t.ctrl = .idle ∧ ∃ r, i.MayReturn r ∧ t.trace = s.trace ++ es ++ [.rsp r]) ∨
      (t.InCommand ∧ t.trace = s.trace ++ es))

theorem State.NoResponseTo.refl (s : State) : s.NoResponseTo s := ⟨[], by simp⟩

theorem State.NoResponseTo.trans (h : s.NoResponseTo t) (h' : t.NoResponseTo u) : s.NoResponseTo u := by
  obtain ⟨es, ht, hes⟩ := h
  obtain ⟨fs, hu, hfs⟩ := h'
  refine ⟨es ++ fs, by rw [hu, ht, List.append_assoc], fun e he => ?_⟩
  exact (List.mem_append.mp he).elim (hes e) (hfs e)

theorem State.NoResponseTo.respond (h : s.NoResponseTo t) {r : Response} (hr : i.MayReturn r) :
    RespondsOnce i s (t.respond r) := by
  obtain ⟨es, ht, hes⟩ := h
  exact ⟨es, hes, .inl ⟨rfl, r, hr, by rw [State.respond_trace, ht]⟩⟩

theorem State.NoResponseTo.writing (h : s.NoResponseTo t) (k : LineNo) (rem : Count) (m : DelayMs) (run : Bool) :
    RespondsOnce i s { t with ctrl := .write k rem m run } := by
  obtain ⟨es, ht, hes⟩ := h
  exact ⟨es, hes, .inr ⟨.inl ⟨k, rem, m, run, rfl⟩, ht⟩⟩

theorem State.NoResponseTo.waiting (h : s.NoResponseTo t) (rem : Count) (m : DelayMs) :
    RespondsOnce i s { t with ctrl := .wait rem m } := by
  obtain ⟨es, ht, hes⟩ := h
  exact ⟨es, hes, .inr ⟨.inr ⟨rem, m, rfl⟩, ht⟩⟩

theorem batch_isRsp {p : Pattern} : ∀ e ∈ batch p, e.isRsp = false := by
  simp [batch, Event.isRsp]

theorem batchBefore_isRsp {k : LineNo} {p : Pattern} : ∀ e ∈ batchBefore k p, e.isRsp = false := by
  intro e he
  obtain ⟨j, -, rfl⟩ := List.mem_map.mp he
  rfl

theorem State.wholeStep_noResponse (s : State) : s.NoResponseTo s.wholeStep := ⟨_, rfl, batch_isRsp⟩

theorem State.partStep_noResponse (k : LineNo) (s : State) : s.NoResponseTo (s.partStep k) :=
  ⟨_, rfl, batchBefore_isRsp⟩

theorem State.failedStep_noResponse (k : LineNo) (c : Cause) (s : State) : s.NoResponseTo (s.failedStep k c) :=
  (s.partStep_noResponse k).trans ⟨_, rfl, by simp [Event.isRsp]⟩

theorem State.requestWait_noResponse (m : DelayMs) (s : State) : s.NoResponseTo (s.requestWait m) :=
  ⟨_, rfl, by simp [Event.isRsp]⟩

theorem runEvents_isRsp (rom : Rom) (d : Direction) (m : DelayMs) (c : Cursor) (n : Nat) :
    ∀ e ∈ runEvents rom d m c n, e.isRsp = false := by
  induction n generalizing c with
  | zero => exact nofun
  | succ n ih =>
    intro e he
    rcases List.mem_append.mp he with he | he
    · exact batch_isRsp e he
    · rcases List.mem_cons.mp he with rfl | he
      · rfl
      · exact ih _ e he

theorem AfterSteps.noResponse {m : DelayMs} {n : Nat} (a : AfterSteps m n s t) : s.NoResponseTo t :=
  ⟨_, a.trace, runEvents_isRsp _ _ _ _ _⟩

theorem StepEnd.respondsOnce (h : StepEnd s t) : RespondsOnce .step s t := by
  cases h with
  | ok => exact s.wholeStep_noResponse.respond (.inl rfl)
  | failed k c => exact (s.failedStep_noResponse k c).respond (.inr ⟨k, c, rfl⟩)
  | unanswered k => exact (s.partStep_noResponse k).writing k 0 0 false

theorem RunEnd.respondsOnce {count : Count} {m : DelayMs} {n : Nat} (h : RunEnd m n s t) :
    RespondsOnce (.stepFor count m) s t := by
  cases h with
  | ok => exact (afterSteps m n s).noResponse.respond (.inl rfl)
  | failed j k c =>
    exact ((afterSteps m j s).noResponse.trans (State.failedStep_noResponse k c _)).respond (.inr (.inl ⟨k, c, rfl⟩))
  | writeUnanswered j k =>
    exact ((afterSteps m j s).noResponse.trans (State.partStep_noResponse k _)).writing k _ m true
  | waitUnanswered j =>
    exact (((afterSteps m j s).noResponse.trans (State.wholeStep_noResponse _)).trans
      (State.requestWait_noResponse m _)).waiting _ m

theorem effectOf_respondsOnce (i : Instr) (s : State) : RespondsOnce i s (effectOf i s) := by
  cases i with
  | setDir d => exact State.NoResponseTo.respond (t := s.writeDir d) ⟨[], by simp⟩ rfl
  | step => exact (stepEffect_end s).respondsOnce
  | stepFor count m =>
    rcases hd : s.hasDelay with _ | _
    · rw [effectOf, stepForEffect_of_noDelay hd]
      exact (State.NoResponseTo.refl s).respond (.inr (.inr rfl))
    · rw [effectOf, stepForEffect_of_delay hd]
      exact (runLoop_end m _ s).respondsOnce
  | illegal => exact (State.NoResponseTo.refl s).respond rfl

end Responses

/-- Settles O22: by the ways a step and a run can end, each of which appends writes and waits and then at most one
response. -/
theorem oneResponsePerCommand : Obligations.OneResponsePerCommand := by
  intro i s hidle
  obtain ⟨es, hes, h⟩ := effectOf_respondsOnce i s
  exact ⟨_, es, exec_of_idle i hidle, hes, h⟩

/-- Settles O39: an idle block accepts every command, and what an accepted command does is a state. -/
theorem idleBlockExecutesEveryCommand : Obligations.IdleBlockExecutesEveryCommand :=
  fun i _ hidle => ⟨_, exec_of_idle i hidle⟩

theorem not_inCommand_of_idle {s : State} (h : s.ctrl = .idle) : ¬ s.InCommand := by
  simp [State.InCommand, h]

/-- Settles O32: an idle block has no command in progress, so it takes the host's. -/
theorem stepRunsDecodedCommand : Obligations.StepRunsDecodedCommand :=
  fun _ _ _ hidle hh => step_of_command hh (not_inCommand_of_idle hidle)

section Ports

variable {s : State} {k : LineNo} {rem : Count} {m : DelayMs} {run : Bool}

/-- After the first reset `cmd_ready` is that no command is in progress (R51). -/
theorem cmdReady_iff (hp : s.ctrl ≠ .powerUp) : s.cmdReady = true ↔ s.ctrl = .idle := by
  cases hc : s.ctrl with
  | powerUp => exact absurd hc hp
  | _ => simp [State.cmdReady, State.busy, hc]

/-- `out_req` is one-hot: the bit of a line is set where that line is requested (R51). -/
theorem requestBit_iff (j k : LineNo) : (BitVec.ofNat 4 (2 ^ (j.num - 1))).getLsbD (k.num - 1) = true ↔ j = k := by
  cases j <;> cases k <;> decide

/-- After the first reset `out_req[k]` is that a write to line `k` is in flight (R51, R106). -/
theorem outReq_iff (hp : s.ctrl ≠ .powerUp) (k : LineNo) :
    s.outReq.getLsbD (k.num - 1) = true ↔ ∃ rem m run, s.ctrl = .write k rem m run := by
  cases hc : s.ctrl with
  | powerUp => exact absurd hc hp
  | write j rem m run =>
    simp only [State.outReq, hc, requestBit_iff]
    simp
  | _ => simp [State.outReq, hc]

/-- After the first reset `dly_req` is that a wait runs (R51, R109). -/
theorem dlyReq_iff (hp : s.ctrl ≠ .powerUp) : s.dlyReq = true ↔ ∃ rem m, s.ctrl = .wait rem m := by
  cases hc : s.ctrl with
  | powerUp => exact absurd hc hp
  | _ => simp [State.dlyReq, hc]

/-- The requested line and its level (R16 `wire`, R51 `out_level`). -/
theorem ports_of_write (hc : s.ctrl = .write k rem m run) :
    s.wire = BitVec.ofNat 3 k.num ∧ s.outLevel = levelBit (lineBit k s.pattern) := by
  simp [State.wire, State.outLevel, hc]

/-- The run state while a write of a run comes next: the step being made is still counted (R16). -/
theorem runState_of_write (hc : s.ctrl = .write k rem m true) : s.runRemaining = rem + 1 ∧ s.runDelay = m := by
  simp [State.runRemaining, State.runDelay, hc]

/-- The ports and the run state while a wait runs (R16, R51). -/
theorem ports_of_wait (hc : s.ctrl = .wait rem m) :
    s.outReq = 0#4 ∧ s.dlyMs = m ∧ s.runDelay = m ∧ s.runRemaining = rem := by
  simp [State.outReq, State.dlyMs, State.runDelay, State.runRemaining, hc]

/-- A wait runs only with a delay capability (R101, R109). -/
theorem State.RunInv.hasDelay_of_wait (h : s.RunInv) (hc : s.ctrl = .wait rem m) : s.hasDelay = true := by
  rw [State.RunInv, hc] at h
  exact h.2

end Ports

/-- Settles O38: each port by the control states; that a wait has a delay capability is the invariant's. -/
theorem portsFollowControlState : Obligations.PortsFollowControlState := by
  intro s hinv hp
  exact ⟨cmdReady_iff hp, outReq_iff hp, fun _ _ _ _ => ports_of_write, fun _ _ _ => runState_of_write, dlyReq_iff hp,
    fun _ _ hc => ⟨hinv.hasDelay_of_wait hc, ports_of_wait hc⟩⟩

end Sys2Proof.Machine

/-! The lookup for every integer (R71, R75) and the half-step shape of a table (R73, R74). -/

namespace Sys2Proof.Machine

section Lookup

variable {rom : Rom} {i j : Int}

/-- The lookup reads nothing of its index but the residue modulo 8 (R75). -/
theorem patternAt_congr (h : i % 8 = j % 8) : patternAt rom i = patternAt rom j := by
  rw [patternAt, h, ← patternAt]

/-- An integer finds the entry whose address is its residue (R71). -/
theorem patternAt_of_emod {a : Cursor} (h : i % 8 = (a.toNat : Int)) : patternAt rom i = romEntry rom a := by
  have hmod : i % 8 = (a.toNat : Int) % 8 := by rw [← h, Int.emod_emod]
  rw [patternAt_congr hmod, patternAt_cursor]

/-- The residue modulo 8 of an unsigned vector is its low three bits (R71). -/
theorem toNat_emod_eight {w : Nat} (v : BitVec w) : (v.toNat : Int) % 8 = ((v.setWidth 3).toNat : Int) := by
  rw [BitVec.toNat_setWidth, Int.natCast_emod]
  rfl

end Lookup

/-- Settles O26: the lookup is a function of the residue, and each clause names the residue of an index. -/
theorem patternAtIsCyclic : Obligations.PatternAtIsCyclic := by
  intro rom i j
  refine ⟨fun a => patternAt_of_emod, ?_, patternAt_congr, ?_, fun w v => ?_⟩
  · exact patternAt_congr (Int.add_emod_right i 8)
  · exact patternAt_of_emod (by decide : (-1 : Int) % 8 = ((7#3 : Cursor).toNat : Int))
  · exact patternAt_of_emod (toNat_emod_eight v)

section HalfStep

variable {rom : Rom} {before e after : Pattern}

/-- The two kinds of entry of a half-step table (R73 (c), (d)). -/
theorem halfStepAt_iff :
    halfStepAt before e after = true ↔
      (highCount e = 2 ∧ highCount before = 1 ∧ highCount after = 1 ∧ e = before ||| after) ∨
        (highCount e = 1 ∧ highCount before = 2 ∧ highCount after = 2) := by
  simp [halfStepAt, and_assoc]

/-- The eight entries of the check are met by every integer, since the lookup is cyclic (R73, R75). -/
theorem halfStepWF_iff :
    halfStepWF rom = true ↔
      ∀ i : Int, halfStepAt (patternAt rom (i - 1)) (patternAt rom i) (patternAt rom (i + 1)) = true := by
  rw [halfStepWF, List.all_eq_true]
  constructor
  · intro h i
    have hr : ((i % 8).toNat : Int) = i % 8 := Int.toNat_of_nonneg (by omega)
    have hi := h (i % 8).toNat (List.mem_range.mpr (by omega))
    rw [hr] at hi
    rw [patternAt_congr (by omega : (i - 1) % 8 = (i % 8 - 1) % 8), patternAt_congr (by omega : i % 8 = i % 8 % 8),
      patternAt_congr (by omega : (i + 1) % 8 = (i % 8 + 1) % 8)]
    exact hi
  · exact fun h i _ => h i

/-- A union differs from one of its parts in the lines that only the union has. -/
theorem highCount_union_xor (p q : Pattern) : highCount ((p ||| q) ^^^ q) + highCount q = highCount (p ||| q) := by
  have bit (x y : Bool) : ((x || y) ^^ y).toNat + y.toNat = (x || y).toNat := by
    cases x <;> cases y <;> rfl
  have line (n : Nat) := bit (p.getLsbD n) (q.getLsbD n)
  simp only [highCount, BitVec.getLsbD_xor, BitVec.getLsbD_or]
  linarith [line 0, line 1, line 2, line 3]

/-- A two-line union of two one-line entries differs from each of them in one line (R73 (d)). -/
theorem highCount_union_xor_eq_one {p q : Pattern} (he : highCount (p ||| q) = 2) (hq : highCount q = 1) :
    highCount ((p ||| q) ^^^ q) = 1 := by
  have h := highCount_union_xor p q
  omega

/-- Of two neighbours one has two lines, and it is the union of the entries around it (R73 (c), (d)). -/
theorem highCount_neighbours_xor (h : halfStepWF rom = true) (i : Int) :
    highCount (patternAt rom i ^^^ patternAt rom (i + 1)) = 1 := by
  rw [halfStepWF_iff] at h
  rcases halfStepAt_iff.mp (h i) with ⟨htwo, -, hafter, hunion⟩ | ⟨hone, -, hafter⟩
  · rw [hunion] at htwo ⊢
    exact highCount_union_xor_eq_one htwo hafter
  · have hnext := h (i + 1)
    rw [add_sub_cancel_right] at hnext
    rcases halfStepAt_iff.mp hnext with ⟨htwo, -, -, hunion⟩ | ⟨hone', -, -⟩
    · rw [hunion, BitVec.or_comm] at htwo ⊢
      rw [BitVec.xor_comm]
      exact highCount_union_xor_eq_one htwo hone
    · omega

end HalfStep

/-- Settles O27: the default table by evaluation; the neighbours by the union each two-line entry is. -/
theorem halfStepNeighboursDifferInOneLine : Obligations.HalfStepNeighboursDifferInOneLine :=
  ⟨by decide, fun _ i h => highCount_neighbours_xor h i⟩

end Sys2Proof.Machine

/-! The cursor's arithmetic (R81) and what `SET_DIR` and `STEP` answer from idle, as next states (R82, R84, R85). -/

namespace Sys2Proof.Machine

section Cursor

variable (c : Cursor) (d : Direction) (n : Nat)

theorem advance_forward_toNat : (advance c .forward).toNat = (c.toNat + 1) % 8 := by
  simp [advance, BitVec.toNat_add]

theorem advance_reverse_toNat : (advance c .reverse).toNat = (c.toNat + 7) % 8 := by
  simp [advance, BitVec.toNat_add]

/-- The two directions undo each other. -/
theorem advance_advance_of_ne {d e : Direction} (h : e ≠ d) : advance (advance c d) e = c := by
  cases d <;> cases e
  · exact absurd rfl h
  · simp [advance, BitVec.add_assoc]
  · simp [advance, BitVec.add_assoc]
  · exact absurd rfl h

theorem advance_iterate : (fun x => advance x d)^[n] c = movedBy c d n := by
  induction n with
  | zero => simp
  | succ n ih => rw [Function.iterate_succ_apply', ih, movedBy_succ']

theorem movedBy_eight : movedBy c d 8 = c := by
  cases d <;> simp [movedBy]

theorem movedBy_forward_toNat : (movedBy c .forward n).toNat = (c.toNat + n) % 8 := by
  simp [movedBy, BitVec.toNat_add]

theorem movedBy_reverse_toNat : ((movedBy c .reverse n).toNat : Int) = (c.toNat - n) % 8 := by
  simp only [movedBy, BitVec.toNat_sub, BitVec.toNat_ofNat]
  omega

end Cursor

/-- Settles O25: `n` applications by induction, the rest by the arithmetic of 3-bit words. -/
theorem advanceIsPlusMinusOneModEight : Obligations.AdvanceIsPlusMinusOneModEight := fun c n =>
  ⟨advance_forward_toNat c, advance_reverse_toNat c, advance_advance_of_ne c nofun, advance_advance_of_ne c nofun,
    fun d => advance_iterate c d n, fun d => (advance_iterate c d 8).trans (movedBy_eight c d),
    movedBy_forward_toNat c n, movedBy_reverse_toNat c n⟩

section StepAnswers

variable {s t : State} {k : LineNo} {c : Cause}

theorem execAll_cons {i : Instr} {is : List Instr} (h : exec i s = .next t) : execAll (i :: is) s = execAll is t := by
  rw [execAll, h]

/-- A response given in Idle changes the trace alone. -/
theorem State.respond_of_idle (h : s.ctrl = .idle) (r : Response) : s.respond r = s.record (.rsp r) := by
  rw [State.respond, ← h]
  rfl

theorem exec_setDir_of_idle (hidle : s.ctrl = .idle) (d : Direction) :
    exec (.setDir d) s = .next ((s.writeDir d).respond .ok) := exec_of_idle _ hidle

theorem stepEffect_of_allOk (h : s.AllWritesOk) : stepEffect s = s.wholeStep.respond .ok := by
  rw [stepEffect, State.stepBody_of_allOk h]

theorem stepEffect_of_fail (h : s.FirstNotOk k (.answered (.fail c))) :
    stepEffect s = (s.failedStep k c).respond (.outputWriteFailed k c) := by
  rw [stepEffect, State.stepBody_of_fail h]
  rfl

theorem stepEffect_of_silent (h : s.FirstNotOk k .silent) :
    stepEffect s = { s.partStep k with ctrl := .write k 0 0 false } := by
  rw [stepEffect, State.stepBody_of_silent h]

theorem exec_step_of_allOk (hidle : s.ctrl = .idle) (h : s.AllWritesOk) :
    exec .step s = .next (s.wholeStep.respond .ok) := by
  rw [exec_of_idle _ hidle, effectOf, stepEffect_of_allOk h]

theorem exec_step_of_fail (hidle : s.ctrl = .idle) (h : s.FirstNotOk k (.answered (.fail c))) :
    exec .step s = .next ((s.failedStep k c).respond (.outputWriteFailed k c)) := by
  rw [exec_of_idle _ hidle, effectOf, stepEffect_of_fail h]

/-- However its writes are answered, a `STEP` moves the cursor by one. -/
theorem StepEnd.cursor (h : StepEnd s t) : t.cursor = advance s.cursor s.dir := by cases h <;> rfl

/-- The delay capability plays no part in a `STEP` (R84): the answers it meets do not depend on `has_delay`. -/
theorem stepEffect_withHasDelay (s : State) (h : Bool) :
    stepEffect { s with hasDelay := h } = { stepEffect s with hasDelay := h } := by
  rcases s.firstNotOk_total with a | ⟨k, ⟨c, a⟩ | a⟩
  · rw [stepEffect_of_allOk a, stepEffect_of_allOk (s := { s with hasDelay := h }) a]
    rfl
  · rw [stepEffect_of_fail a, stepEffect_of_fail (s := { s with hasDelay := h }) a]
    rfl
  · rw [stepEffect_of_silent a, stepEffect_of_silent (s := { s with hasDelay := h }) a]
    rfl

/-- The trace of a failed `STEP` with its response (R85). -/
theorem State.failedStep_respond_trace (s : State) (k : LineNo) (c : Cause) :
    ((s.failedStep k c).respond (.outputWriteFailed k c)).trace =
      s.trace ++ batchBefore k s.advanceCursor.pattern ++
        [.write k (lineBit k s.advanceCursor.pattern) (.fail c), .rsp (.outputWriteFailed k c)] := by
  simp [State.failedStep_trace]

/-- A failed step touches no line but `k` beyond the writes before it. -/
theorem State.failedStep_other {j : LineNo} (h : j ≠ k) :
    (s.failedStep k c).outs.get j = (s.outs.writtenBefore k s.advanceCursor.pattern).get j := by
  simp [State.failedStep, Outputs.get_set_other _ _ h, State.partStep]

/-- A failed step has written the lines before line `k` (R85). -/
theorem State.failedStep_before {j : LineNo} (h : j.num < k.num) :
    (s.failedStep k c).outs.get j = (s.outs.get j).written (lineBit j s.advanceCursor.pattern) := by
  rw [State.failedStep_other fun e => absurd h (by simp [e]), Outputs.writtenBefore_lt h]

/-- A failed step leaves the capabilities after line `k` as they were (R85). -/
theorem State.failedStep_after {j : LineNo} (h : k.num < j.num) :
    (s.failedStep k c).outs.get j = s.outs.get j := by
  rw [State.failedStep_other fun e => absurd h (by simp [e]), Outputs.writtenBefore_ge h.le]

/-- A failed step leaves line `k` HIGH, LOW or as it was (R15, R85). -/
theorem State.failedStep_unspecified (s : State) (k : LineNo) (c : Cause) :
    LineUnspecified (s.line k) ((s.failedStep k c).line k) := by
  simpa [State.failedStep, State.line, State.partStep, Outputs.writtenBefore_ge (Nat.le_refl k.num)] using
    levelAfterFate_unspecified (Config.failedWriteFate s.draws) (s.outs.get k).level

end StepAnswers

/-- Settles O6: by what a `STEP` answers when its writes are ok and when one fails first, and by
`stepEffect_withHasDelay`. -/
theorem stepResult : Obligations.StepResult := by
  refine ⟨fun s hidle h => ?_, fun s k c hidle h => ?_, fun s h hidle => ?_⟩
  · rw [exec_step_of_allOk hidle h, State.respond_of_idle (s := s.wholeStep) hidle]
    rfl
  · exact ⟨_, exec_step_of_fail hidle h, rfl, rfl, s.failedStep_respond_trace k c⟩
  · refine ⟨_, exec_of_idle _ hidle, ?_⟩
    rw [exec_of_idle _ (s := { s with hasDelay := h }) hidle, effectOf, stepEffect_withHasDelay]

/-- Settles O7: by what a failed step leaves on the lines before, at and after line `k`. -/
theorem stepFirstFailure : Obligations.StepFirstFailure := fun s k c hidle h =>
  ⟨_, exec_step_of_fail hidle h, rfl, rfl, rfl, rfl, rfl, rfl, rfl, fun _ hj => State.failedStep_before (c := c) hj,
    s.failedStep_unspecified k c, fun _ hj => State.failedStep_after (c := c) (Nat.lt_of_not_le hj),
    s.failedStep_respond_trace k c⟩

/-- Settles O5: by what `SET_DIR` answers from idle; the busy block by `exec_of_busy`; the `STEP` after it by
`StepEnd.cursor`, whatever answers its writes get. -/
theorem setDirResult : Obligations.SetDirResult := by
  have result (s : State) (d : Direction) (hidle : s.ctrl = .idle) :
      exec (.setDir d) s = .next { s with dir := d, trace := s.trace ++ [.rsp .ok] } := by
    rw [exec_setDir_of_idle hidle, State.respond_of_idle (s := s.writeDir d) hidle]
    rfl
  refine ⟨result, fun s d e hidle => ?_, fun s d hbusy => exec_of_busy _ hbusy, fun s hidle hcursor => ?_⟩
  · rw [execAll_cons (result s d hidle), execAll_cons (result { s with dir := d, trace := _ } e hidle)]
    simp [execAll]
  · have stepEnd := stepEffect_end ((s.writeDir .reverse).respond .ok)
    refine ⟨_, ?_, stepEnd.cursor.trans ?_, stepEnd.frame.dir⟩
    · rw [execAll_cons (exec_setDir_of_idle hidle _), execAll_cons (exec_of_idle .step rfl)]
      rfl
    · simp [hcursor, advance]

/-- The state after a `STEP` whose writes were answered ok and the `SET_DIR e` after it. -/
def State.stepAndTurn (e : Direction) (s : State) : State := ((s.wholeStep.respond .ok).writeDir e).respond .ok

section Reversal

variable {s : State} {e : Direction}

theorem State.stepAndTurn_trace (s : State) (e : Direction) :
    (s.stepAndTurn e).trace = s.trace ++ batch s.advanceCursor.pattern ++ [.rsp .ok, .rsp .ok] := by
  simp [State.stepAndTurn]

theorem State.WritesOk.afterStepAndTurn {n : Nat} (h : s.WritesOk (n + 1)) : (s.stepAndTurn e).WritesOk n :=
  h.afterStep

theorem State.stepAndTurn_advance_cursor (he : e ≠ s.dir) : (s.stepAndTurn e).advanceCursor.cursor = s.cursor :=
  advance_advance_of_ne s.cursor he

/-- The step after the turn applies the entry the cursor named at first: "there is no lag of one step" (R88). -/
theorem State.stepAndTurn_advance_pattern (he : e ≠ s.dir) : (s.stepAndTurn e).advanceCursor.pattern = s.pattern := by
  rw [State.pattern_eq, State.pattern_eq, State.stepAndTurn_advance_cursor he]
  rfl

end Reversal

/-- Settles O36: the second step undoes the cursor's advance (`advance_advance_of_ne`) and so applies the entry the
cursor named at first. -/
theorem reversalComesBack : Obligations.ReversalComesBack := by
  intro s e hidle he h
  have pattern := State.stepAndTurn_advance_pattern he
  have shows : ((s.stepAndTurn e).wholeStep.respond .ok).LinesShowPattern := (State.wholeStep_shows _).respond .ok
  refine ⟨(s.stepAndTurn e).wholeStep.respond .ok, ?_, State.stepAndTurn_advance_cursor he, rfl, shows,
    fun before k => ?_, ?_⟩
  · rw [execAll_cons (exec_step_of_allOk hidle h.allWritesOk),
      execAll_cons (t := s.stepAndTurn e) (exec_setDir_of_idle rfl e),
      execAll_cons (exec_step_of_allOk rfl h.afterStepAndTurn.allWritesOk)]
    rfl
  · rw [shows k, before k]
    exact congrArg (fun p => LineLevel.driven (lineBit k p)) pattern
  · rw [State.respond_trace, State.wholeStep_trace, pattern, State.stepAndTurn_trace]
    rfl

/-- The first of `n + 1` `STEP` commands, and then the others from where it left the cursor. -/
theorem stepsEvents_succ (rom : Rom) (d : Direction) (c : Cursor) (n : Nat) :
    stepsEvents rom d c (n + 1) =
      batch (patternAt rom (advance c d).toNat) ++ [.rsp .ok] ++ stepsEvents rom d (advance c d) n := by
  simp [stepsEvents, List.range_succ_eq_map, List.flatMap_map, movedBy_succ]

/-- `n` `STEP` commands from idle with the writes answered ok (R86). -/
theorem execAll_steps (n : Nat) (s : State) (hidle : s.ctrl = .idle) (h : s.WritesOk n) :
    ∃ t, execAll (List.replicate n .step) s = .next t ∧ t.cursor = movedBy s.cursor s.dir n ∧ t.dir = s.dir ∧
      t.ctrl = .idle ∧ t.trace = s.trace ++ stepsEvents s.rom s.dir s.cursor n := by
  induction n generalizing s with
  | zero => exact ⟨s, rfl, by simp, rfl, hidle, by simp [stepsEvents]⟩
  | succ n ih =>
    obtain ⟨t, run, cursor, dir, ctrl, trace⟩ := ih (s.wholeStep.respond .ok) rfl h.afterStep
    refine ⟨t, ?_, ?_, dir, ctrl, ?_⟩
    · rw [List.replicate_succ, execAll_cons (exec_step_of_allOk hidle h.allWritesOk), run]
    · rw [cursor, movedBy_succ]
      rfl
    · rw [trace, stepsEvents_succ, State.respond_trace, State.wholeStep_trace]
      simp only [List.append_assoc]
      rfl

/-- Settles O37: by induction on the number of `STEP` commands; the entries from cursor 0 by the arithmetic of
`movedBy`. -/
theorem stepsWalkTheTable : Obligations.StepsWalkTheTable := by
  refine ⟨execAll_steps, fun j => ⟨by simpa using movedBy_forward_toNat 0#3 j, ?_⟩⟩
  have h := movedBy_reverse_toNat 0#3 j
  simp only [BitVec.toNat_ofNat] at h
  omega

end Sys2Proof.Machine

/-! Where the events of a command come from (R89, R109). -/

namespace Sys2Proof.Machine

/-- The events `es` of a command begun at cursor `c`: the `n`-th write, counted from 0, goes to line `n mod 4 + 1` with
its level in the entry `n / 4 + 1` further than `c` (R89), and only allowed waits are requested (R109). -/
structure EventsFrom (rom : Rom) (d : Direction) (c : Cursor) (allowed : DelayMs → Prop) (es : List Event) : Prop where
  writes : ∀ n k v a, (es.filter Event.isWrite)[n]? = some (.write k v a) →
    k.num = n % 4 + 1 ∧ v = lineBit k (romEntry rom (movedBy c d (n / 4 + 1)))
  delays : ∀ ms, Event.delay ms ∈ es → allowed ms

section Events

variable {rom : Rom} {d : Direction} {c : Cursor} {allowed : DelayMs → Prop} {es : List Event} {k : LineNo}

theorem batchBefore_isWrite {p : Pattern} : ∀ e ∈ batchBefore k p, e.isWrite = true := by
  intro e he
  obtain ⟨j, -, rfl⟩ := List.mem_map.mp he
  rfl

/-- The writes of one step up to line `k`, the last one answered `a`. -/
def writesUpTo (k : LineNo) (p : Pattern) (a : WriteAnswer) : List Event :=
  batchBefore k p ++ [.write k (lineBit k p) a]

theorem batchBefore_prefix_writesUpTo (k : LineNo) (p : Pattern) (a : WriteAnswer) :
    batchBefore k p <+: writesUpTo k p a := List.prefix_append _ _

theorem writesUpTo_isWrite {p : Pattern} {a : WriteAnswer} : ∀ e ∈ writesUpTo k p a, e.isWrite = true := by
  intro e he
  rcases List.mem_append.mp he with he | he
  · exact batchBefore_isWrite e he
  · rw [List.mem_singleton.mp he]
    rfl

/-- The writes of one step go in wire order, each with its line's level in the one entry. -/
theorem getElem?_writesUpTo {j : LineNo} {p : Pattern} {a b : WriteAnswer} {v : Level} {n : Nat}
    (h : (writesUpTo k p a)[n]? = some (.write j v b)) : n < 4 ∧ j.num = n + 1 ∧ v = lineBit j p := by
  rcases n with _ | _ | _ | _ | n <;> cases k <;> simp [writesUpTo, batchBefore, LineNo.all, LineNo.num] at h <;>
    (obtain ⟨rfl, rfl, -⟩ := h; exact ⟨by omega, rfl, rfl⟩)

theorem filter_isWrite_writesUpTo {p : Pattern} {a : WriteAnswer} :
    (writesUpTo k p a).filter Event.isWrite = writesUpTo k p a := List.filter_eq_self.mpr writesUpTo_isWrite

theorem batch_eq_writesUpTo (p : Pattern) : batch p = writesUpTo .four p .ok := rfl

theorem filter_isWrite_batch (p : Pattern) : (batch p).filter Event.isWrite = batch p := by
  rw [batch_eq_writesUpTo, filter_isWrite_writesUpTo]

namespace EventsFrom

theorem nil : EventsFrom rom d c allowed [] := ⟨nofun, nofun⟩

theorem of_prefix {fs : List Event} (h : EventsFrom rom d c allowed fs) (hp : es <+: fs) :
    EventsFrom rom d c allowed es where
  writes n k v a hw := h.writes n k v a <| by
    obtain ⟨hn, -⟩ := List.getElem?_eq_some_iff.mp hw
    obtain ⟨later, rfl⟩ := hp
    rw [List.filter_append, List.getElem?_append_left hn, hw]
  delays ms hm := h.delays ms (hp.subset hm)

/-- The writes of one step are those of the entry one further than the cursor (R89). -/
theorem writesUpTo (k : LineNo) (a : WriteAnswer) :
    EventsFrom rom d c allowed (writesUpTo k (romEntry rom (advance c d)) a) where
  writes n j v b hw := by
    rw [filter_isWrite_writesUpTo] at hw
    obtain ⟨hn, hj, hv⟩ := getElem?_writesUpTo hw
    rw [Nat.mod_eq_of_lt hn, Nat.div_eq_of_lt hn, movedBy_succ, movedBy_zero]
    exact ⟨hj, hv⟩
  delays ms hm := absurd (writesUpTo_isWrite _ hm) (by simp [Event.isWrite])

theorem batch : EventsFrom rom d c allowed (Machine.batch (romEntry rom (advance c d))) := .writesUpTo .four .ok

/-- A whole step before `es` counts as four writes and one entry. -/
theorem batch_append (h : EventsFrom rom d (advance c d) allowed es) :
    EventsFrom rom d c allowed (Machine.batch (romEntry rom (advance c d)) ++ es) where
  writes n k v a hw := by
    have length : (Machine.batch (romEntry rom (advance c d))).length = 4 := rfl
    rw [List.filter_append, filter_isWrite_batch] at hw
    rcases Nat.lt_or_ge n 4 with hn | hn
    · rw [List.getElem?_append_left (by omega)] at hw
      rw [← filter_isWrite_batch] at hw
      exact (batch (allowed := allowed)).writes n k v a hw
    · obtain ⟨i, rfl⟩ := Nat.exists_eq_add_of_le' hn
      rw [List.getElem?_append_right (by omega), length, Nat.add_sub_cancel] at hw
      rw [Nat.add_mod_right, Nat.add_div_right i (by omega), movedBy_succ]
      exact h.writes i k v a hw
  delays ms hm := by
    rcases List.mem_append.mp hm with hm | hm
    · exact batch.delays ms hm
    · exact h.delays ms hm

theorem cons_delay {m : DelayMs} (h : EventsFrom rom d c allowed es) (hm : allowed m) :
    EventsFrom rom d c allowed (.delay m :: es) where
  writes n k v a hw := h.writes n k v a (by simpa [Event.isWrite] using hw)
  delays ms hms := by
    rcases List.mem_cons.mp hms with e | hms
    · cases e
      exact hm
    · exact h.delays ms hms

theorem append_delay {m : DelayMs} (h : EventsFrom rom d c allowed es) (hm : allowed m) :
    EventsFrom rom d c allowed (es ++ [.delay m]) where
  writes n k v a hw := h.writes n k v a (by simpa [Event.isWrite] using hw)
  delays ms hms := by
    rcases List.mem_append.mp hms with hms | hms
    · exact h.delays ms hms
    · cases List.mem_singleton.mp hms
      exact hm

theorem append_rsp (h : EventsFrom rom d c allowed es) (r : Response) :
    EventsFrom rom d c allowed (es ++ [.rsp r]) where
  writes n k v a hw := h.writes n k v a (by simpa [Event.isWrite] using hw)
  delays ms hms := h.delays ms (by simpa using hms)

/-- `n` whole steps of a run with their waits, and then `es` from where they left the cursor. -/
theorem runEvents_append {m : DelayMs} (n : Nat) (h : EventsFrom rom d (movedBy c d n) allowed es) (hm : allowed m) :
    EventsFrom rom d c allowed (runEvents rom d m c n ++ es) := by
  induction n generalizing c with
  | zero => simpa [runEvents] using h
  | succ n ih =>
    rw [movedBy_succ] at h
    rw [runEvents, patternAt_cursor, List.append_assoc]
    exact ((ih h).cons_delay hm).batch_append

end EventsFrom

end Events

/-- The trace has grown by events that come from the table and from allowed waits, counted from the cursor of `s`. -/
def State.Emits (allowed : DelayMs → Prop) (s t : State) : Prop :=
  ∃ es, t.trace = s.trace ++ es ∧ EventsFrom s.rom s.dir s.cursor allowed es

section Emits

variable {allowed : DelayMs → Prop} {s t u : State} {m : DelayMs}

theorem State.Emits.refl (s : State) : s.Emits allowed s := ⟨[], by simp, .nil⟩

theorem State.Emits.respond (h : s.Emits allowed t) (r : Response) : s.Emits allowed (t.respond r) := by
  obtain ⟨es, ht, hes⟩ := h
  exact ⟨es ++ [.rsp r], by rw [State.respond_trace, ht, List.append_assoc], hes.append_rsp r⟩

theorem State.Emits.requestWait (h : s.Emits allowed t) (hm : allowed m) : s.Emits allowed (t.requestWait m) := by
  obtain ⟨es, ht, hes⟩ := h
  exact ⟨es ++ [.delay m], by rw [State.requestWait_trace, ht, List.append_assoc], hes.append_delay hm⟩

theorem State.Emits.withCtrl (h : s.Emits allowed t) (ctrl : Ctrl) : s.Emits allowed { t with ctrl := ctrl } := h

/-- What is emitted after `n` whole steps of a run counts on from them. -/
theorem AfterSteps.emits {n : Nat} (a : AfterSteps m n s t) (hm : allowed m) (h : t.Emits allowed u) :
    s.Emits allowed u := by
  obtain ⟨es, hu, hes⟩ := h
  rw [a.rom, a.dir, a.cursor] at hes
  exact ⟨_, by rw [hu, a.trace, List.append_assoc], hes.runEvents_append n hm⟩

theorem State.failedStep_emits (k : LineNo) (c : Cause) (s : State) : s.Emits allowed (s.failedStep k c) := by
  refine ⟨_, s.failedStep_trace k c, ?_⟩
  rw [s.advanceCursor.pattern_eq]
  exact .writesUpTo k (.fail c)

theorem State.partStep_emits (k : LineNo) (s : State) : s.Emits allowed (s.partStep k) := by
  refine ⟨_, s.partStep_trace k, ?_⟩
  rw [s.advanceCursor.pattern_eq]
  exact .of_prefix (.writesUpTo k .ok) (batchBefore_prefix_writesUpTo k _ .ok)

theorem State.wholeStep_emits (s : State) : s.Emits allowed s.wholeStep := by
  refine ⟨_, s.wholeStep_trace, ?_⟩
  rw [s.advanceCursor.pattern_eq]
  exact .batch

theorem StepEnd.emits (h : StepEnd s t) : s.Emits allowed t := by
  cases h with
  | ok => exact s.wholeStep_emits.respond _
  | failed k c => exact (s.failedStep_emits k c).respond _
  | unanswered k => exact (s.partStep_emits k).withCtrl _

theorem RunEnd.emits {n : Nat} (h : RunEnd m n s t) (hm : allowed m) : s.Emits allowed t := by
  cases h with
  | ok => exact ((afterSteps m n s).emits hm (.refl _)).respond _
  | failed j k c => exact ((afterSteps m j s).emits hm (State.failedStep_emits k c _)).respond _
  | writeUnanswered j k => exact ((afterSteps m j s).emits hm (State.partStep_emits k _)).withCtrl _
  | waitUnanswered j =>
    exact (((afterSteps m j s).emits hm (State.wholeStep_emits _)).requestWait hm).withCtrl _

end Emits

/-- The waits a command may request: its own `delay_ms`, and only with a delay capability (R109). -/
def MayWait (i : Instr) (s : State) (ms : DelayMs) : Prop := s.hasDelay = true ∧ ∃ count, i = .stepFor count ms

theorem effectOf_emits (i : Instr) (s : State) : s.Emits (MayWait i s) (effectOf i s) := by
  cases i with
  | setDir d => exact (State.Emits.refl s).respond .ok
  | step => exact (stepEffect_end s).emits
  | stepFor count m =>
    rcases hd : s.hasDelay with _ | _
    · rw [effectOf, stepForEffect_of_noDelay hd]
      exact (State.Emits.refl s).respond _
    · rw [effectOf, stepForEffect_of_delay hd]
      exact (runLoop_end m _ s).emits ⟨hd, count, rfl⟩
  | illegal => exact (State.Emits.refl s).respond .illegalCommand

/-- Settles O23: by the ways a step and a run can end; each whole step before the last accounts for four writes and one
entry (`EventsFrom.batch_append`). -/
theorem eventsComeFromTableAndOperands : Obligations.EventsComeFromTableAndOperands := by
  intro i s hidle
  obtain ⟨es, htrace, hes⟩ := effectOf_emits i s
  exact ⟨_, es, exec_of_idle i hidle, htrace, hes.writes, hes.delays⟩

end Sys2Proof.Machine

/-! The rows of R106 that leave a busy state, as one relation; each row keeps the invariant of a command in progress, and
no row leaves a request that is never answered (R107, U10). -/

namespace Sys2Proof.Machine

/-- The state once the write to line `k` of the cursor's pattern is answered `fail(c)`, before the response (R8, R15). -/
def State.wroteFail (k : LineNo) (c : Cause) (s : State) : State :=
  ((s.popReply k).disturbLine k).record (.write k (lineBit k s.pattern) (.fail c))

/-- The rows of R106 that leave a busy state, each with the answer it takes. -/
inductive TickRow (s : State) : State → Prop where
  | nextLine {k j : LineNo} {rem : Count} {m : DelayMs} {run : Bool} : s.ctrl = .write k rem m run →
      k.next? = some j → s.writeReply k = .answered .ok → TickRow s { s.wroteOk k with ctrl := .write j rem m run }
  | stepEnds {rem : Count} {m : DelayMs} : s.ctrl = .write .four rem m false → s.writeReply .four = .answered .ok →
      TickRow s ((s.wroteOk .four).respond .ok)
  | waits {rem : Count} {m : DelayMs} : s.ctrl = .write .four rem m true → s.writeReply .four = .answered .ok →
      TickRow s { (s.wroteOk .four).requestWait m with ctrl := .wait rem m }
  | fails {k : LineNo} {rem : Count} {m : DelayMs} {run : Bool} {c : Cause} : s.ctrl = .write k rem m run →
      s.writeReply k = .answered (.fail c) → TickRow s ((s.wroteFail k c).respond (.outputWriteFailed k c))
  | nextStep {rem : Count} {m : DelayMs} : s.ctrl = .wait rem m → s.waits.head = .done → rem ≠ 0 →
      TickRow s { s.endWait.advanceCursor with ctrl := .write .one (rem - 1) m true }
  | runEnds {m : DelayMs} : s.ctrl = .wait 0 m → s.waits.head = .done → TickRow s (s.endWait.respond .ok)

/-- The pending write or wait is never answered (R107). -/
def State.Unanswered (s : State) : Prop :=
  (∃ k rem m run, s.ctrl = .write k rem m run ∧ s.writeReply k = .silent) ∨
    ∃ rem m, s.ctrl = .wait rem m ∧ s.waits.head = .silent

section Rows

variable {s t : State} {k j : LineNo} {rem : Count} {m : DelayMs} {run : Bool} {c : Cause}

theorem LineNo.next?_eq_some_iff : k.next? = some j ↔ j.num = k.num + 1 := by
  cases k <;> cases j <;> decide

theorem LineNo.next?_eq_none_iff : k.next? = none ↔ k = .four := by
  cases k <;> decide

theorem LineNo.num_injective : Function.Injective LineNo.num := fun _ _ h => lineNum_inj (congrArg (BitVec.ofNat 3) h)

theorem LineNo.not_num_lt_one (j : LineNo) : ¬ j.num < LineNo.one.num := Nat.not_lt_of_le (lineNum_bounds j).1

theorem State.outWrite_eq_wroteOk (h : s.writeReply k = .answered .ok) :
    s.outWrite k (lineBit k s.pattern) = (.answered .ok, s.wroteOk k) := by
  rw [State.outWrite_of_ok h]
  cases k <;> rfl

theorem tickWrite_of_ok_next (h : s.writeReply k = .answered .ok) (hk : k.next? = some j) :
    tickWrite k rem m run s = some { s.wroteOk k with ctrl := .write j rem m run } := by
  simp only [tickWrite, State.outWrite_eq_wroteOk h, hk]

theorem tickWrite_of_ok_last (h : s.writeReply .four = .answered .ok) :
    tickWrite .four rem m run s =
      if run then some { (s.wroteOk .four).requestWait m with ctrl := .wait rem m }
      else some ((s.wroteOk .four).respond .ok) := by
  simp only [tickWrite, State.outWrite_eq_wroteOk h, LineNo.next?]

theorem tickWrite_of_fail (h : s.writeReply k = .answered (.fail c)) :
    tickWrite k rem m run s = some ((s.wroteFail k c).respond (.outputWriteFailed k c)) := by
  rw [tickWrite, State.outWrite_of_fail h]
  rfl

theorem tickWrite_of_silent (h : s.writeReply k = .silent) : tickWrite k rem m run s = none := by
  rw [tickWrite, State.outWrite_of_silent h]

theorem tickWait_of_done (h : s.waits.head = .done) :
    tickWait rem m s =
      if rem = 0 then some (s.endWait.respond .ok)
      else some { s.endWait.advanceCursor with ctrl := .write .one (rem - 1) m true } := by
  rw [tickWait, h]

theorem tickWait_of_silent (h : s.waits.head = .silent) : tickWait rem m s = none := by
  rw [tickWait, h]

/-- A busy block makes a row of R106, or its request is never answered and it makes none. -/
theorem tick_of_inCommand (hc : s.InCommand) :
    (∃ t, tick s = some t ∧ TickRow s t ∧ ¬ s.Unanswered) ∨ (tick s = none ∧ s.Unanswered) := by
  obtain ⟨k, rem, m, run, hc⟩ | ⟨rem, m, hc⟩ := hc
  · rw [tick_of_write hc]
    rcases hr : s.writeReply k with (_ | c) | _
    · left
      have answered : ¬ s.Unanswered := by simp [State.Unanswered, hc, hr]
      cases hk : k.next? with
      | some j => exact ⟨_, tickWrite_of_ok_next hr hk, .nextLine hc hk hr, answered⟩
      | none =>
        obtain rfl := LineNo.next?_eq_none_iff.mp hk
        cases run with
        | false => exact ⟨_, tickWrite_of_ok_last hr, .stepEnds hc hr, answered⟩
        | true => exact ⟨_, tickWrite_of_ok_last hr, .waits hc hr, answered⟩
    · exact .inl ⟨_, tickWrite_of_fail hr, .fails hc hr, by simp [State.Unanswered, hc, hr]⟩
    · exact .inr ⟨tickWrite_of_silent hr, .inl ⟨k, rem, m, run, hc, hr⟩⟩
  · rw [tick_of_wait hc]
    rcases hw : s.waits.head with _ | _
    · left
      have answered : ¬ s.Unanswered := by simp [State.Unanswered, hc, hw]
      rw [tickWait_of_done hw]
      split
      next h0 => exact ⟨_, rfl, .runEnds (h0 ▸ hc) hw, answered⟩
      next h0 => exact ⟨_, rfl, .nextStep hc hw h0, answered⟩
    · exact .inr ⟨tickWait_of_silent hw, .inr ⟨rem, m, hc, hw⟩⟩

theorem TickRow.inCommand (h : TickRow s t) : s.InCommand := by
  cases h with
  | nextLine hc => exact .inl ⟨_, _, _, _, hc⟩
  | stepEnds hc => exact .inl ⟨_, _, _, _, hc⟩
  | waits hc => exact .inl ⟨_, _, _, _, hc⟩
  | fails hc => exact .inl ⟨_, _, _, _, hc⟩
  | nextStep hc => exact .inr ⟨_, _, hc⟩
  | runEnds hc => exact .inr ⟨_, _, hc⟩

theorem inCommand_of_tick (h : tick s = some t) : s.InCommand := by
  rcases hc : s.ctrl with _ | _ | ⟨k, rem, m, run⟩ | ⟨rem, m⟩
  · simp [tick, hc] at h
  · simp [tick, hc] at h
  · exact .inl ⟨k, rem, m, run, hc⟩
  · exact .inr ⟨rem, m, hc⟩

theorem TickRow.of_tick (h : tick s = some t) : TickRow s t := by
  rcases tick_of_inCommand (inCommand_of_tick h) with ⟨t', ht, row, -⟩ | ⟨hn, -⟩
  · rw [h] at ht
    cases ht
    exact row
  · rw [h] at hn
    cases hn

theorem TickRow.tick_eq (h : TickRow s t) : tick s = some t := by
  cases h with
  | nextLine hc hk hr => rw [tick_of_write hc, tickWrite_of_ok_next hr hk]
  | stepEnds hc hr => rw [tick_of_write hc, tickWrite_of_ok_last hr, if_neg Bool.false_ne_true]
  | waits hc hr => rw [tick_of_write hc, tickWrite_of_ok_last hr, if_pos rfl]
  | fails hc hr => rw [tick_of_write hc, tickWrite_of_fail hr]
  | nextStep hc hw h0 => rw [tick_of_wait hc, tickWait_of_done hw, if_neg h0]
  | runEnds hc hw => rw [tick_of_wait hc, tickWait_of_done hw, if_pos rfl]

/-- A busy block has no transition exactly where its request is never answered (R107). -/
theorem tick_eq_none_iff (hc : s.InCommand) : tick s = none ↔ s.Unanswered := by
  rcases tick_of_inCommand hc with ⟨t, ht, -, h⟩ | ⟨ht, h⟩
  · simp [ht, h]
  · exact iff_of_true ht h

end Rows

section Invariant

variable {s t : State} {k : LineNo} {rem : Count} {m : DelayMs} {run : Bool} {c : Cause}

theorem State.runInv_of_idle (h : s.ctrl = .idle) : s.RunInv := by simp [State.RunInv, h]

theorem State.runInv_of_powerUp (h : s.ctrl = .powerUp) : s.RunInv := by simp [State.RunInv, h]

theorem State.runInv_iff_of_write (h : s.ctrl = .write k rem m run) :
    s.RunInv ↔ (∀ j, j.num < k.num → s.line j = .driven (lineBit j s.pattern)) ∧ (run = true → s.hasDelay = true) := by
  rw [State.RunInv, h]

theorem State.runInv_iff_of_wait (h : s.ctrl = .wait rem m) : s.RunInv ↔ s.LinesShowPattern ∧ s.hasDelay = true := by
  rw [State.RunInv, h]

/-- Once line `k` is written, the lines up to it show the cursor's pattern if the lines before it did. -/
theorem State.wroteOk_shows (h : ∀ j, LineNo.num j < k.num → s.line j = .driven (lineBit j s.pattern)) {j : LineNo}
    (hj : j.num ≤ k.num) : (s.wroteOk k).line j = .driven (lineBit j s.pattern) := by
  by_cases e : j = k
  · simp [State.line, State.wroteOk, e]
  · have lt : j.num < k.num := Nat.lt_of_le_of_ne hj fun same => e (LineNo.num_injective same)
    simpa [State.line, State.wroteOk, Outputs.get_set_other _ _ e] using h j lt

/-- Each row of R106 keeps the invariant. -/
theorem TickRow.runInv (h : TickRow s t) (inv : s.RunInv) : t.RunInv := by
  cases h with
  | nextLine hc hk =>
    obtain ⟨before, delay⟩ := (State.runInv_iff_of_write hc).mp inv
    refine (State.runInv_iff_of_write rfl).mpr ⟨fun j hj => State.wroteOk_shows before ?_, delay⟩
    rw [LineNo.next?_eq_some_iff] at hk
    omega
  | stepEnds => exact State.runInv_of_idle rfl
  | waits hc =>
    obtain ⟨before, delay⟩ := (State.runInv_iff_of_write hc).mp inv
    exact (State.runInv_iff_of_wait rfl).mpr
      ⟨fun j => State.wroteOk_shows before (lineNum_bounds j).2, delay rfl⟩
  | fails => exact State.runInv_of_idle rfl
  | nextStep hc =>
    obtain ⟨-, delay⟩ := (State.runInv_iff_of_wait hc).mp inv
    exact (State.runInv_iff_of_write rfl).mpr
      ⟨fun j hj => absurd hj j.not_num_lt_one, fun _ => delay⟩
  | runEnds => exact State.runInv_of_idle rfl

theorem StepEnd.runInv (h : StepEnd s t) : t.RunInv := by
  cases h with
  | ok => exact State.runInv_of_idle rfl
  | failed => exact State.runInv_of_idle rfl
  | unanswered k => exact (State.runInv_iff_of_write rfl).mpr ⟨fun _ hj => s.partStep_shows k hj, nofun⟩

theorem RunEnd.runInv {n : Nat} (h : RunEnd m n s t) (delay : s.hasDelay = true) : t.RunInv := by
  have hd : t.hasDelay = true := h.frame.hasDelay.trans delay
  cases h with
  | ok => exact State.runInv_of_idle rfl
  | failed => exact State.runInv_of_idle rfl
  | writeUnanswered j k =>
    exact (State.runInv_iff_of_write rfl).mpr ⟨fun _ hj => State.partStep_shows _ k hj, fun _ => hd⟩
  | waitUnanswered j => exact (State.runInv_iff_of_wait rfl).mpr ⟨State.wholeStep_shows _, hd⟩

/-- What an accepted command leaves has the invariant, whatever the answers. -/
theorem effectOf_runInv (i : Instr) (s : State) : (effectOf i s).RunInv := by
  cases i with
  | setDir d => exact State.runInv_of_idle rfl
  | step => exact (stepEffect_end s).runInv
  | stepFor count m =>
    rcases hd : s.hasDelay with _ | _
    · rw [effectOf, stepForEffect_of_noDelay hd]
      exact State.runInv_of_idle rfl
    · rw [effectOf, stepForEffect_of_delay hd]
      exact (runLoop_end m _ s).runInv hd
  | illegal => exact State.runInv_of_idle rfl

end Invariant

/-- Settles O18: by what a step can do. A command leaves a state with the invariant (`effectOf_runInv`), a row of R106
keeps it (`TickRow.runInv`), and a reset or a power cycle leaves no command in progress. -/
theorem stepKeepsRunInv : Obligations.StepKeepsRunInv := by
  intro s t inv e
  rcases step_next_cases e with
    ⟨strap, later, -, rfl⟩ | ⟨later, -, rfl⟩ | ⟨w, later, -, hc, e⟩ | ⟨-, -, rfl⟩ | ⟨-, -, -, e⟩
  · exact State.runInv_of_idle rfl
  · exact State.runInv_of_powerUp rfl
  · rcases exec_next_cases e with ⟨-, rfl⟩ | ⟨busy, -⟩
    · exact effectOf_runInv _ _
    · exact absurd busy hc
  · exact inv
  · exact (TickRow.of_tick e).runInv inv

/-- Settles O34: neither reset nor unpowered, a busy block does what `tick` does, and `tick_eq_none_iff` says where that
is nothing. -/
theorem unansweredRequestIsStuck : Obligations.UnansweredRequestIsStuck := by
  intro s hc hr hp
  have moves : step s = (tick s).elim (.fault .unansweredRequest) .next := by
    rcases ht : tick s with _ | t
    · rcases fetch_cases s with ⟨_, _, h, -⟩ | ⟨_, h, -⟩ | ⟨_, _, -, h, -⟩ | ⟨-, h, -⟩ | ⟨-, -, -, e⟩
      · exact absurd h (hr _ _)
      · exact absurd h (hp _)
      · exact absurd hc h
      · exact absurd hc h
      · simp only [step, e, ht, Option.elim]
    · exact step_of_tick hc hr hp ht
  refine ⟨moves, Iff.trans ?_ (tick_eq_none_iff hc)⟩
  rw [moves]
  rcases tick s with _ | t <;> simp

section FailedWrite

variable (s : State) (k : LineNo) (c : Cause)

theorem State.wroteFail_unspecified : LineUnspecified (s.line k) ((s.wroteFail k c).line k) := by
  simpa [State.wroteFail, State.line] using
    levelAfterFate_unspecified (Config.failedWriteFate s.draws) (s.outs.get k).level

theorem State.wroteFail_replies : ((s.wroteFail k c).outs.get k).replies = (s.outs.get k).replies.pop := by
  simp [State.wroteFail]

theorem State.wroteFail_other {j : LineNo} (h : j ≠ k) : (s.wroteFail k c).outs.get j = s.outs.get j := by
  simp [State.wroteFail, Outputs.get_set_other _ _ h]

theorem State.wroteFail_respond_trace (r : Response) :
    ((s.wroteFail k c).respond r).trace = s.trace ++ [.write k (lineBit k s.pattern) (.fail c), .rsp r] := by
  simp [State.wroteFail]

end FailedWrite

/-- Settles O40: each clause is a row of `TickRow`, which is the step of a block neither reset nor unpowered. -/
theorem busyStepFollowsControlRows : Obligations.BusyStepFollowsControlRows := by
  intro s hr hp
  have moves {t : State} (row : TickRow s t) : step s = .next t := step_of_tick row.inCommand hr hp row.tick_eq
  refine ⟨fun k j rem m run hc hj ok => ?_, fun rem m hc ok => ?_, fun rem m hc ok => ?_,
    fun k rem m run c hc fail => ?_, fun rem m hc done h0 => ?_, fun m hc done => ?_⟩
  · exact moves (.nextLine hc (LineNo.next?_eq_some_iff.mpr hj) ok)
  · exact moves (.stepEnds hc ok)
  · exact moves (.waits hc ok)
  · exact ⟨_, moves (.fails hc fail), rfl, rfl, rfl, rfl, rfl, rfl, rfl, s.wroteFail_unspecified k c,
      s.wroteFail_replies k c, fun _ hj => s.wroteFail_other k c hj, s.wroteFail_respond_trace k c _⟩
  · exact moves (.nextStep hc done h0)
  · exact moves (.runEnds hc done)

end Sys2Proof.Machine

/-! What a `STEP` and a run answer in each case of their answers (42_step_for R100 to R107). -/

namespace Sys2Proof.Machine

section Loop

variable {s : State} {n : Nat} {m : DelayMs} {k : LineNo} {c : Cause}

theorem runLoop_succ_of_fail (h : s.FirstNotOk k (.answered (.fail c))) :
    runLoop m (n + 1) s = (s.failedStep k c).respond (.outputWriteFailed k c) := by
  rw [runLoop, State.stepBody_of_fail h]
  rfl

theorem runLoop_succ_of_silent (h : s.FirstNotOk k .silent) :
    runLoop m (n + 1) s = { s.partStep k with ctrl := .write k (BitVec.ofNat 32 n) m true } := by
  rw [runLoop, State.stepBody_of_silent h]

theorem runLoop_succ_of_done (h : s.AllWritesOk) (hw : s.waits.head = .done) :
    runLoop m (n + 1) s = runLoop m n (s.stepAndWait m) := by
  simp only [runLoop, State.stepBody_of_allOk h, State.wholeStep_waits, hw, State.stepAndWait]

theorem runLoop_succ_of_waitSilent (h : s.AllWritesOk) (hw : s.waits.head = .silent) :
    runLoop m (n + 1) s = { s.wholeStep.requestWait m with ctrl := .wait (BitVec.ofNat 32 n) m } := by
  simp only [runLoop, State.stepBody_of_allOk h, State.wholeStep_waits, hw]

theorem runLoop_of_allOk (h : s.RunOk n) : runLoop m n s = ((State.stepAndWait m)^[n] s).respond .ok :=
  runLoop_of_runOk m h 0

/-- A run longer than the `n` steps that go well goes on after them with at least one step to do. -/
theorem runLoop_after {total : Nat} (m : DelayMs) (hn : n < total) (h : s.RunOk n) :
    runLoop m total s = runLoop m (total - n - 1 + 1) ((State.stepAndWait m)^[n] s) := by
  rw [← runLoop_of_runOk m h, show n + (total - n - 1 + 1) = total by omega]

/-- After `n` whole steps the next step meets the replies that come after them. -/
theorem afterSteps_allWritesOk (m : DelayMs) (h : ∀ k, (s.outs.get k).replies.nth n = .answered .ok) :
    ((State.stepAndWait m)^[n] s).AllWritesOk := fun k => by
  rw [State.writeReply, ← Script.nth_zero, (afterSteps m n s).replies, Nat.zero_add]
  exact h k

/-- After `n` whole steps the next wait meets the reply that comes after them. -/
theorem afterSteps_waits_head (m : DelayMs) (n : Nat) (s : State) :
    ((State.stepAndWait m)^[n] s).waits.head = s.waits.nth n := by
  rw [← Script.nth_zero, (afterSteps m n s).waits, Nat.zero_add]

theorem exec_stepFor_of_delay {count : Count} (hidle : s.ctrl = .idle) (hd : s.hasDelay = true) :
    exec (.stepFor count m) s = .next (runLoop m count.toNat s) := by
  rw [exec_of_idle _ hidle, effectOf, stepForEffect_of_delay hd]

end Loop

/-- Settles O10: the check of `has_delay` comes first, and an idle block's response changes the trace alone. -/
theorem stepForWithoutDelay : Obligations.StepForWithoutDelay := by
  intro s count m hidle hd
  rw [exec_of_idle _ hidle, effectOf, stepForEffect_of_noDelay hd, State.respond_of_idle hidle]
  rfl

/-- Settles O11: the loop of no steps is the response. -/
theorem stepForZeroSteps : Obligations.StepForZeroSteps := by
  intro s m hidle hd
  have respond : runLoop m (0 : Count).toNat s = s.respond .ok := rfl
  rw [exec_stepFor_of_delay hidle hd, respond, State.respond_of_idle hidle]
  rfl

/-- Settles O8: by what the step has done before the unanswered write (`State.partStep`). -/
theorem stepUnansweredStaysBusy : Obligations.StepUnansweredStaysBusy := by
  intro s k hidle h
  have run : exec .step s = .next { s.partStep k with ctrl := .write k 0 0 false } := by
    rw [exec_of_idle _ hidle, effectOf, stepEffect_of_silent h]
  exact ⟨_, run, rfl, rfl, rfl, rfl, rfl, rfl, fun _ hj => Outputs.writtenBefore_lt hj _ _,
    fun _ hj => Outputs.writtenBefore_ge (Nat.le_of_not_lt hj) _ _, rfl⟩

section RunEvents

variable (rom : Rom) (d : Direction) (m : DelayMs) (c : Cursor) (n : Nat)

theorem runEvents_countP_isWrite : (runEvents rom d m c n).countP Event.isWrite = 4 * n := by
  induction n generalizing c with
  | zero => rfl
  | succ n ih =>
    have four (p : Pattern) : (batch p).countP Event.isWrite = 4 := rfl
    rw [runEvents, List.countP_append, four, List.countP_cons_of_neg Bool.false_ne_true, ih]
    omega

theorem runEvents_count_delay : (runEvents rom d m c n).count (.delay m) = n := by
  induction n generalizing c with
  | zero => rfl
  | succ n ih =>
    have noDelay (p : Pattern) : (batch p).count (.delay m) = 0 := List.count_eq_zero.mpr (by simp [batch])
    rw [runEvents, List.count_append, noDelay, List.count_cons_self, ih, Nat.zero_add]

theorem runEvents_length : (runEvents rom d m c n).length = 5 * n := by
  induction n generalizing c with
  | zero => rfl
  | succ n ih =>
    have four (p : Pattern) : (batch p).length = 4 := rfl
    rw [runEvents, List.length_append, four, List.length_cons, ih]
    omega

/-- The events of one step more, made last. -/
theorem runEvents_succ' : runEvents rom d m c (n + 1) =
    runEvents rom d m c n ++ batch (patternAt rom (movedBy c d (n + 1)).toNat) ++ [.delay m] := by
  induction n generalizing c with
  | zero => simp [runEvents, movedBy_succ]
  | succ n ih =>
    rw [runEvents, ih, ← movedBy_succ, runEvents]
    simp

end RunEvents

/-- Settles O12: the loop makes `count` whole steps with their waits (`AfterSteps`) and responds. -/
theorem stepForSuccess : Obligations.StepForSuccess := by
  intro s count m hidle hd h
  have a := afterSteps m count.toNat s
  refine ⟨_, exec_stepFor_of_delay hidle hd, ?_⟩
  rw [runLoop_of_allOk h]
  refine ⟨a.cursor, a.dir, a.hasDelay.trans hd, rfl, a.rom, a.host,
    fun h0 => (a.shows (count_toNat_pos h0)).respond .ok, ?_, ?_, runEvents_countP_isWrite _ _ _ _ _,
    runEvents_count_delay _ _ _ _ _, runEvents_length _ _ _ _ _⟩
  · rintro rfl
    exact a.outs rfl
  · rw [State.respond_trace, a.trace]

section Stops

variable {s t : State} {n : Nat} {m : DelayMs}

/-- The step after `n` whole steps moves the cursor to `n + 1` (R104). -/
theorem AfterSteps.advance_cursor (a : AfterSteps m n s t) : t.advanceCursor.cursor = movedBy s.cursor s.dir (n + 1) := by
  rw [State.advanceCursor_cursor, a.cursor, a.dir, movedBy_succ']

/-- Where at least one whole step was made, the lines show the entry it named. -/
theorem AfterSteps.line_of_pos (a : AfterSteps m n s t) (hn : 0 < n) (j : LineNo) :
    t.line j = .driven (lineBit j (patternAt s.rom (movedBy s.cursor s.dir n).toNat)) := by
  rw [a.shows hn j, State.pattern, a.rom, a.cursor]

/-- Where no step was made, the lines are as they were. -/
theorem AfterSteps.line_of_zero (a : AfterSteps m n s t) (hn : n = 0) (j : LineNo) : t.line j = s.line j := by
  rw [State.line, State.line, a.outs hn]

/-- The steps left after the one being made, as R106 counts them down. -/
theorem remaining_eq {count : Count} (hn : n < count.toNat) :
    BitVec.ofNat 32 (count.toNat - n - 1) = count - 1 - BitVec.ofNat 32 n := by
  have := count.isLt
  apply BitVec.eq_of_toNat_eq
  simp [BitVec.toNat_sub]
  omega

end Stops

/-- Settles O13: `n` whole steps with their waits and then a failed step, which touches the lines up to `k` only. -/
theorem stepForAbortsAtFailure : Obligations.StepForAbortsAtFailure := by
  intro s count m n k c hidle hd hn hok h
  have a := afterSteps m n s
  have unspecified := State.failedStep_unspecified ((State.stepAndWait m)^[n] s) k c
  have later {j : LineNo} (hj : k.num < j.num) :
      (((State.stepAndWait m)^[n] s).failedStep k c).line j = ((State.stepAndWait m)^[n] s).line j :=
    congrArg OutputCap.level (State.failedStep_after hj)
  refine ⟨_, exec_stepFor_of_delay hidle hd, ?_⟩
  rw [runLoop_after m hn hok, runLoop_succ_of_fail (h.now m)]
  refine ⟨a.advance_cursor, a.dir, a.hasDelay.trans hd, rfl, a.rom, a.host,
    fun j hj => congrArg OutputCap.level (State.failedStep_before (c := c) hj), fun pos => ⟨?_, fun j hj => ?_⟩,
    fun zero => ⟨?_, fun j hj => ?_⟩, ?_⟩
  · exact a.line_of_pos pos k ▸ unspecified
  · exact (later hj).trans (a.line_of_pos pos j)
  · exact a.line_of_zero zero k ▸ unspecified
  · exact (later hj).trans (a.line_of_zero zero j)
  · rw [State.failedStep_respond_trace, a.trace]
    rfl

/-- Settles O14: `n` whole steps with their waits, and then the part of a step before the unanswered write, or a whole
step before the unanswered wait. -/
theorem stepForUnansweredStaysBusy : Obligations.StepForUnansweredStaysBusy := by
  intro s count m n hidle hd hn hok
  have a := afterSteps m n s
  have run := exec_stepFor_of_delay (count := count) (m := m) hidle hd
  rw [runLoop_after m hn hok] at run
  constructor
  · intro k h
    rw [runLoop_succ_of_silent (h.now m)] at run
    refine ⟨_, run, congrArg (Ctrl.write k · m true) (remaining_eq hn), a.advance_cursor, ?_⟩
    rw [State.partStep_trace, a.trace]
    rfl
  · intro ok silent
    rw [runLoop_succ_of_waitSilent (afterSteps_allWritesOk m ok) ((afterSteps_waits_head m n s).trans silent)] at run
    refine ⟨_, run, congrArg (Ctrl.wait · m) (remaining_eq hn), a.advance_cursor, State.wholeStep_shows _, ?_⟩
    rw [State.requestWait_trace, State.wholeStep_trace, a.trace, runEvents_succ', State.pattern, a.advance_cursor]
    simp [a.rom]

end Sys2Proof.Machine

/-! A run against a loop of `STEP` commands (42_step_for R108), and the end of every command under fairness (R107). -/

namespace Sys2Proof.Machine

/-- What R108 compares, with what the next step depends on: everything but the control state, the waits and the events
that are not writes. -/
structure StepView where
  cursor : Cursor
  dir : Direction
  rom : Rom
  outs : Outputs
  draws : Nat
  writes : List Event

/-- The view of a state. -/
def State.stepView (s : State) : StepView where
  cursor := s.cursor
  dir := s.dir
  rom := s.rom
  outs := s.outs
  draws := s.draws
  writes := s.trace.filter Event.isWrite

section View

variable {s u : State} {k : LineNo} {c : Cause} {m : DelayMs} {n : Nat}

theorem State.stepView_eq_iff : s.stepView = u.stepView ↔
    s.cursor = u.cursor ∧ s.dir = u.dir ∧ s.rom = u.rom ∧ s.outs = u.outs ∧ s.draws = u.draws ∧
      s.trace.filter Event.isWrite = u.trace.filter Event.isWrite := by
  simp only [State.stepView, StepView.mk.injEq]

theorem State.respond_stepView (s : State) (r : Response) : (s.respond r).stepView = s.stepView := by
  simp [State.stepView, Event.isWrite]

theorem State.stepAndWait_stepView (s : State) (m : DelayMs) : (s.stepAndWait m).stepView = s.wholeStep.stepView := by
  simp [State.stepAndWait, State.stepView, Event.isWrite]

/-- Two states of one view get the same replies to their writes. -/
theorem State.writeReply_congr (h : s.stepView = u.stepView) (k : LineNo) : u.writeReply k = s.writeReply k := by
  have outs : s.outs = u.outs := congrArg StepView.outs h
  rw [State.writeReply, State.writeReply, outs]

theorem State.AllWritesOk.congr (h : s.stepView = u.stepView) (ok : s.AllWritesOk) : u.AllWritesOk := fun k =>
  (State.writeReply_congr h k).trans (ok k)

theorem State.FirstNotOk.congr {r : WriteReply} (h : s.stepView = u.stepView) (first : s.FirstNotOk k r) :
    u.FirstNotOk k r :=
  ⟨fun j hj => (State.writeReply_congr h j).trans (first.1 j hj), (State.writeReply_congr h k).trans first.2⟩

theorem State.wholeStep_congr (h : s.stepView = u.stepView) : s.wholeStep.stepView = u.wholeStep.stepView := by
  simp only [State.stepView_eq_iff] at h ⊢
  simp [State.wholeStep, State.pattern, h]

theorem State.partStep_congr (h : s.stepView = u.stepView) (k : LineNo) :
    (s.partStep k).stepView = (u.partStep k).stepView := by
  simp only [State.stepView_eq_iff] at h ⊢
  simp [State.partStep, State.pattern, h]

theorem State.wroteFail_congr (h : s.stepView = u.stepView) (k : LineNo) (c : Cause) :
    (s.wroteFail k c).stepView = (u.wroteFail k c).stepView := by
  simp only [State.stepView_eq_iff] at h ⊢
  simp [State.wroteFail, State.pattern, h]

/-- A failed step is the writes before line `k` and the failed write. -/
theorem State.failedStep_eq_wroteFail (s : State) (k : LineNo) (c : Cause) :
    s.failedStep k c = (s.partStep k).wroteFail k c := rfl

theorem manualLoop_succ_of_allOk (h : s.AllWritesOk) :
    manualLoop (n + 1) s = manualLoop n (s.wholeStep.respond .ok) := by
  rw [manualLoop, stepEffect_of_allOk h, if_pos ⟨rfl, by simp⟩]

theorem manualLoop_succ_of_fail (h : s.FirstNotOk k (.answered (.fail c))) :
    manualLoop (n + 1) s = (s.failedStep k c).respond (.outputWriteFailed k c) := by
  have notOk : Response.outputWriteFailed k c ≠ .ok := nofun
  rw [manualLoop, stepEffect_of_fail h, if_neg fun last => respond_getLast?_ne_ok notOk last.2]

theorem manualLoop_succ_of_silent (h : s.FirstNotOk k .silent) :
    manualLoop (n + 1) s = { s.partStep k with ctrl := .write k 0 0 false } := by
  rw [manualLoop, stepEffect_of_silent h, if_neg fun last => Ctrl.noConfusion last.1]

/-- R108: from states of one view, a run whose waits all end and the loop of as many `STEP` commands end in states of one
view, for every pattern of write answers. -/
theorem runLoop_stepView (m : DelayMs) (n : Nat) {s u : State} (h : s.stepView = u.stepView)
    (hw : ∀ i, i < n → s.waits.nth i = .done) : (runLoop m n s).stepView = (manualLoop n u).stepView := by
  induction n generalizing s u with
  | zero => exact (s.respond_stepView .ok).trans h
  | succ n ih =>
    rcases s.firstNotOk_total with ok | ⟨k, ⟨c, fail⟩ | silent⟩
    · have head : s.waits.head = .done := by simpa using hw 0 (by omega)
      rw [runLoop_succ_of_done ok head, manualLoop_succ_of_allOk (ok.congr h)]
      refine ih ?_ fun i hi => ?_
      · rw [State.stepAndWait_stepView, State.respond_stepView, State.wholeStep_congr h]
      · simpa [State.stepAndWait] using hw (i + 1) (by omega)
    · rw [runLoop_succ_of_fail fail, manualLoop_succ_of_fail (fail.congr h), State.respond_stepView,
        State.respond_stepView]
      exact State.wroteFail_congr (State.partStep_congr h k) k c
    · rw [runLoop_succ_of_silent silent, manualLoop_succ_of_silent (silent.congr h)]
      exact State.partStep_congr h k

end View

/-- Settles O15: the run and the loop start in one state, so they end in states of one view (`runLoop_stepView`). -/
theorem runEqualsManualLoop : Obligations.RunEqualsManualLoop := by
  intro s count m hidle hd hw
  have same := runLoop_stepView m count.toNat (u := s) rfl hw
  exact ⟨_, exec_stepFor_of_delay hidle hd, congrArg StepView.writes same, congrArg StepView.cursor same,
    congrArg StepView.dir same, congrArg StepView.outs same⟩

section Fairness

variable {s t : State} {m : DelayMs} {n : Nat}

/-- A fair environment leaves no write of any later step unanswered. -/
theorem State.Fair.not_firstNotOkAfter (fair : s.Fair) (k : LineNo) : ¬ s.FirstNotOkAfter n k .silent := fun h =>
  fair.1 k n h.2

theorem State.Fair.not_firstNotOk (fair : s.Fair) (k : LineNo) : ¬ s.FirstNotOk k .silent := fun h =>
  fair.1 k 0 (Script.nth_zero _ ▸ h.2)

theorem State.Fair.respond (fair : s.Fair) (r : Response) : (s.respond r).Fair := fair

theorem State.Fair.wholeStep (fair : s.Fair) : s.wholeStep.Fair :=
  ⟨fun k i => by simpa [State.wholeStep] using fair.1 k (i + 1), fair.2⟩

theorem AfterSteps.fair (a : AfterSteps m n s t) (fair : s.Fair) : t.Fair :=
  ⟨fun k i => a.replies k i ▸ fair.1 k (i + n), fun i => a.waits i ▸ fair.2 (i + n)⟩

/-- A failed step has used up one reply of line `k`. -/
theorem State.failedStep_replies_self (s : State) (k : LineNo) (c : Cause) :
    ((s.failedStep k c).outs.get k).replies = (s.outs.get k).replies.pop := by
  rw [State.failedStep_eq_wroteFail, State.wroteFail_replies, State.partStep, Outputs.writtenBefore_ge le_rfl]

theorem State.Fair.failedStep (fair : s.Fair) (k : LineNo) (c : Cause) : (s.failedStep k c).Fair := by
  refine ⟨fun j i => ?_, fair.2⟩
  rcases Nat.lt_trichotomy j.num k.num with lt | eq | gt
  · rw [State.failedStep_before lt, OutputCap.written_replies, Script.nth_pop]
    exact fair.1 j (i + 1)
  · rw [LineNo.num_injective eq, State.failedStep_replies_self, Script.nth_pop]
    exact fair.1 k (i + 1)
  · rw [State.failedStep_after gt]
    exact fair.1 j i

theorem StepEnd.fair (h : StepEnd s t) (fair : s.Fair) : t.ctrl = .idle ∧ t.Fair := by
  cases h with
  | ok => exact ⟨rfl, fair.wholeStep.respond _⟩
  | failed k c => exact ⟨rfl, (fair.failedStep k c).respond _⟩
  | unanswered k h => exact absurd h (fair.not_firstNotOk k)

theorem RunEnd.fair (h : RunEnd m n s t) (fair : s.Fair) : t.ctrl = .idle ∧ t.Fair := by
  cases h with
  | ok => exact ⟨rfl, ((afterSteps m n s).fair fair).respond _⟩
  | failed j k c => exact ⟨rfl, (((afterSteps m j s).fair fair).failedStep k c).respond _⟩
  | writeUnanswered j k _ _ h => exact absurd h (fair.not_firstNotOkAfter k)
  | waitUnanswered j _ _ _ h => exact absurd h (fair.2 j)

/-- With every request answered, an accepted command ends, and the environment stays fair. -/
theorem effectOf_fair (i : Instr) (fair : s.Fair) : (effectOf i s).ctrl = .idle ∧ (effectOf i s).Fair := by
  cases i with
  | setDir d => exact ⟨rfl, fair⟩
  | step => exact (stepEffect_end s).fair fair
  | stepFor count m =>
    rcases hd : s.hasDelay with _ | _
    · rw [effectOf, stepForEffect_of_noDelay hd]
      exact ⟨rfl, fair.respond _⟩
    · rw [effectOf, stepForEffect_of_delay hd]
      exact (runLoop_end m _ s).fair fair
  | illegal => exact ⟨rfl, fair⟩

end Fairness

/-- Settles O17: a fair command ends in Idle (`effectOf_fair`), and one that ends there has responded
(`effectOf_respondsOnce`). -/
theorem fairCommandsRespond : Obligations.FairCommandsRespond := by
  intro i s hidle fair
  obtain ⟨idle, stays⟩ := effectOf_fair i fair
  refine ⟨_, exec_of_idle i hidle, idle, stays, ?_⟩
  obtain ⟨es, -, ⟨-, r, -, trace⟩ | ⟨busy, -⟩⟩ := effectOf_respondsOnce i s
  · exact ⟨r, by simp [trace]⟩
  · exact absurd busy (not_inCommand_of_idle idle)

end Sys2Proof.Machine

/-! The small-step machine reaches what the whole command gives (42_step_for R106). -/

namespace Sys2Proof.Machine

open Relation (ReflTransGen)

/-- Rows of R106 lead from `s` to `t`, and none leaves `t`. -/
def State.RunsTo (s t : State) : Prop := ReflTransGen TickRow s t ∧ tick t = none

/-- A step in progress whose write to line `k` comes next, in a `STEP` or a run. -/
def State.writing (k : LineNo) (rem : Count) (m : DelayMs) (run : Bool) (s : State) : State :=
  { s.partStep k with ctrl := .write k rem m run }

/-- A run whose step is made and whose wait comes next. -/
def State.waiting (rem : Count) (m : DelayMs) (s : State) : State :=
  { s.wholeStep.requestWait m with ctrl := .wait rem m }

section Reach

variable {s s' t : State} {k j : LineNo} {rem : Count} {m : DelayMs} {run : Bool} {c : Cause} {n : Nat}

/-- A chain of rows is a number of transitions. -/
theorem ticks_of_rows (h : ReflTransGen TickRow s t) : ∃ n, ticks n s = t := by
  induction h using ReflTransGen.head_induction_on with
  | refl => exact ⟨0, rfl⟩
  | head row _ ih =>
    obtain ⟨n, hn⟩ := ih
    exact ⟨n + 1, by simp only [ticks, row.tick_eq, hn]⟩

theorem tick_of_idle (h : s.ctrl = .idle) : tick s = none := by simp [tick, h]

theorem State.RunsTo.of_idle (h : s.ctrl = .idle) : s.RunsTo s := ⟨.refl, tick_of_idle h⟩

theorem State.RunsTo.head (row : TickRow s s') (h : s'.RunsTo t) : s.RunsTo t := ⟨.head row h.1, h.2⟩

theorem State.RunsTo.after (rows : ReflTransGen TickRow s s') (h : s'.RunsTo t) : s.RunsTo t :=
  ⟨rows.trans h.1, h.2⟩

/-- A row that ends the command is the last. -/
theorem State.RunsTo.last (row : TickRow s t) (h : t.ctrl = .idle) : s.RunsTo t := .head row (.of_idle h)

/-- A request that is never answered is where the rows end. -/
theorem State.RunsTo.of_unanswered (h : s.Unanswered) : s.RunsTo s := by
  have busy : s.InCommand :=
    h.imp (fun ⟨k, rem, m, run, hc, _⟩ => ⟨k, rem, m, run, hc⟩) fun ⟨rem, m, hc, _⟩ => ⟨rem, m, hc⟩
  exact ⟨.refl, (tick_eq_none_iff busy).mpr h⟩

/-- The first write of a step comes next once the cursor is advanced. -/
theorem State.writing_one (s : State) (rem : Count) (m : DelayMs) (run : Bool) :
    s.writing .one rem m run = { s.advanceCursor with ctrl := .write .one rem m run } := by
  simp [State.writing, State.partStep, Outputs.writtenBefore, batchBefore, LineNo.num]

/-- The writes before line `k` use up no reply of line `k`. -/
theorem State.writing_writeReply (s : State) (k : LineNo) (rem : Count) (m : DelayMs) (run : Bool) :
    (s.writing k rem m run).writeReply k = s.writeReply k :=
  congrArg (·.replies.head) (Outputs.writtenBefore_ge le_rfl _ _)

theorem State.writing_wroteOk (hk : k.next? = some j) :
    { (s.writing k rem m run).wroteOk k with ctrl := .write j rem m run } = s.writing j rem m run := by
  cases k <;> cases hk <;>
    simp [State.writing, State.wroteOk, State.partStep, Outputs.writtenBefore, Outputs.get, Outputs.set, batchBefore,
      LineNo.num, LineNo.all, State.pattern]

/-- The fourth write completes the step. -/
theorem State.writing_four_wroteOk :
    (s.writing .four rem m run).wroteOk .four = { s.wholeStep with ctrl := .write .four rem m run } := by
  simp [State.writing, State.wroteOk, State.partStep, State.wholeStep, Outputs.writtenBefore, Outputs.written,
    Outputs.get, Outputs.set, batchBefore, batch, LineNo.num, LineNo.all, State.pattern]

theorem writing_row (ok : s.writeReply k = .answered .ok) (hk : k.next? = some j) :
    TickRow (s.writing k rem m run) (s.writing j rem m run) :=
  State.writing_wroteOk hk ▸ TickRow.nextLine rfl hk ((s.writing_writeReply k rem m run).trans ok)

/-- While the writes before line `k` are answered ok, the rows lead from the first line to line `k`. -/
theorem rows_to_line (before : ∀ j, LineNo.num j < k.num → s.writeReply j = .answered .ok) :
    ReflTransGen TickRow (s.writing .one rem m run) (s.writing k rem m run) := by
  cases k with
  | one => exact .refl
  | two => exact .single (writing_row (before .one (by decide)) rfl)
  | three =>
    exact .tail (.single (writing_row (before .one (by decide)) rfl)) (writing_row (before .two (by decide)) rfl)
  | four =>
    exact .tail (.tail (.single (writing_row (before .one (by decide)) rfl))
      (writing_row (before .two (by decide)) rfl)) (writing_row (before .three (by decide)) rfl)

theorem runsTo_of_fail (h : s.FirstNotOk k (.answered (.fail c))) :
    (s.writing .one rem m run).RunsTo ((s.failedStep k c).respond (.outputWriteFailed k c)) :=
  .after (rows_to_line h.1) (.last (.fails rfl ((s.writing_writeReply k rem m run).trans h.2)) rfl)

theorem runsTo_of_silent (h : s.FirstNotOk k .silent) :
    (s.writing .one rem m run).RunsTo (s.writing k rem m run) :=
  .after (rows_to_line h.1)
    (.of_unanswered (.inl ⟨k, rem, m, run, rfl, (s.writing_writeReply k rem m run).trans h.2⟩))

theorem runsTo_of_allOk_step (h : s.AllWritesOk) :
    (s.writing .one rem m false).RunsTo (s.wholeStep.respond .ok) := by
  have row := TickRow.stepEnds rfl ((s.writing_writeReply .four rem m false).trans (h .four))
  rw [State.writing_four_wroteOk] at row
  exact .after (rows_to_line fun j _ => h j) (.last row rfl)

theorem rows_to_wait (h : s.AllWritesOk) :
    ReflTransGen TickRow (s.writing .one rem m true) (s.waiting rem m) := by
  have row := TickRow.waits rfl ((s.writing_writeReply .four rem m true).trans (h .four))
  rw [State.writing_four_wroteOk] at row
  exact .tail (rows_to_line fun j _ => h j) row

theorem waiting_row (hw : s.waits.head = .done) (h0 : rem ≠ 0) :
    TickRow (s.waiting rem m) ((s.stepAndWait m).writing .one (rem - 1) m true) := by
  rw [State.writing_one]
  exact .nextStep rfl hw h0

/-- A `STEP` accepted makes the rows of R106 to what it does as a whole. -/
theorem runsTo_stepEffect (s : State) : (s.writing .one 0 0 false).RunsTo (stepEffect s) := by
  rcases s.firstNotOk_total with ok | ⟨k, ⟨c, fail⟩ | silent⟩
  · rw [stepEffect_of_allOk ok]
    exact runsTo_of_allOk_step ok
  · rw [stepEffect_of_fail fail]
    exact runsTo_of_fail fail
  · rw [stepEffect_of_silent silent]
    exact runsTo_of_silent silent

/-- One step of a run makes the rows of R106 to what the loop does, if the rows after its wait do. -/
theorem runsTo_runLoop_succ
    (next : s.waits.head = .done → (s.waiting (BitVec.ofNat 32 n) m).RunsTo (runLoop m n (s.stepAndWait m))) :
    (s.writing .one (BitVec.ofNat 32 n) m true).RunsTo (runLoop m (n + 1) s) := by
  rcases s.firstNotOk_total with ok | ⟨k, ⟨c, fail⟩ | silent⟩
  · refine .after (rows_to_wait ok) ?_
    rcases hw : s.waits.head with _ | _
    · rw [runLoop_succ_of_done ok hw]
      exact next hw
    · rw [runLoop_succ_of_waitSilent ok hw]
      exact .of_unanswered (.inr ⟨_, m, rfl, hw⟩)
  · rw [runLoop_succ_of_fail fail]
    exact runsTo_of_fail fail
  · rw [runLoop_succ_of_silent silent]
    exact runsTo_of_silent silent

/-- A run with `n` steps to do after the one that begins makes the rows of R106 to what the loop does. -/
theorem runsTo_runLoop (m : DelayMs) (n : Nat) (hn : n < 2 ^ 32) (s : State) :
    (s.writing .one (BitVec.ofNat 32 n) m true).RunsTo (runLoop m (n + 1) s) := by
  induction n generalizing s with
  | zero => exact runsTo_runLoop_succ fun hw => .last (.runEnds rfl hw) rfl
  | succ n ih =>
    refine runsTo_runLoop_succ fun hw => ?_
    have pos : BitVec.ofNat 32 (n + 1) ≠ 0 := fun h => by
      have zero : (n + 1) % 2 ^ 32 = 0 := congrArg BitVec.toNat h
      omega
    have counted : BitVec.ofNat 32 (n + 1) - 1 = BitVec.ofNat 32 n := by
      rw [BitVec.ofNat_add]
      exact BitVec.add_sub_cancel _ _
    have row := waiting_row (m := m) hw pos
    rw [counted] at row
    exact .head row (ih (by omega) _)

/-- An accepted command makes the rows of R106 to what it does as a whole. -/
theorem begin_runsTo (i : Instr) (s : State) : (begin i s).RunsTo (effectOf i s) := by
  cases i with
  | setDir d => exact .of_idle rfl
  | step =>
    rw [begin, ← s.writing_one]
    exact runsTo_stepEffect s
  | stepFor count m =>
    rcases hd : s.hasDelay with _ | _
    · rw [begin, hd, if_neg Bool.false_ne_true, effectOf, stepForEffect_of_noDelay hd]
      exact .of_idle rfl
    · rw [begin, hd, if_pos rfl, effectOf, stepForEffect_of_delay hd]
      split
      next zero =>
        subst zero
        exact .of_idle rfl
      next pos =>
        obtain ⟨n, hn⟩ := Nat.exists_eq_add_one_of_ne_zero (count_toNat_pos pos).ne'
        have left : count - 1 = BitVec.ofNat 32 n := by
          simpa [hn] using (remaining_eq (count_toNat_pos pos)).symm
        rw [← s.writing_one, left, hn]
        exact runsTo_runLoop m n (by have := count.isLt; omega) s
  | illegal => exact .of_idle rfl

end Reach

/-- Settles O16: a chain of rows is a number of transitions, and the rows lead from the acceptance of a command to what
it does as a whole (`begin_runsTo`). -/
theorem smallStepsReachWholeCommand : Obligations.SmallStepsReachWholeCommand := by
  intro i s hidle
  obtain ⟨rows, ends⟩ := begin_runsTo i s
  obtain ⟨n, hn⟩ := ticks_of_rows rows
  exact ⟨_, n, exec_of_idle i hidle, hn, ends⟩

end Sys2Proof.Machine

/-! The reserved opcode, the bits a decoder ignores (30_encoding R55, 60_exceptions R124), and an idle block with no
command (60_exceptions R135). -/

namespace Sys2Proof.Machine

/-- Only the reserved opcode decodes to `ILLEGAL` (R55). -/
theorem decode_eq_illegal_iff (w : CmdWord) : decode w = .illegal ↔ opField w = 0b00#2 := by
  rcases opField_cases w with hop | hop | hop | hop
  · simp [decode_illegal hop, hop]
  · simp [decode_setDir hop, hop]
  · simp [decode_step hop, hop]
  · simp [decode_stepFor hop, hop]

/-- Of a `SET_DIR` word the decoder reads the opcode and bit 0 (R52, R55). -/
theorem decode_setDir_congr {v w : CmdWord} (hop : opField v = opField w) (hv : opField v = 0b01#2)
    (hd : v.getLsbD 0 = w.getLsbD 0) : decode v = decode w := by
  rw [decode_setDir hv, decode_setDir (hop ▸ hv), directionOfBit_dField, directionOfBit_dField, hd]

/-- `ILLEGAL` in Idle records its response and does nothing else (R124). -/
theorem exec_illegal_of_idle {s : State} (hidle : s.ctrl = .idle) :
    exec .illegal s = .next (s.record (.rsp .illegalCommand)) := by
  rw [exec_of_idle _ hidle, ← State.respond_of_idle hidle]
  rfl

/-- Settles O30: the reserved opcode alone decodes to `ILLEGAL`, whose effect is one response, and for each other opcode
`decode` reads no ignored bit. -/
theorem reservedOpcodeAndIgnoredBits : Obligations.ReservedOpcodeAndIgnoredBits := by
  refine ⟨decode_eq_illegal_iff, fun s hidle => exec_illegal_of_idle hidle, fun v w hop reads => ?_⟩
  rcases reads with step | reserved | ⟨setDir, hd⟩
  · rw [decode_step step, decode_step (hop ▸ step)]
  · rw [decode_illegal reserved, decode_illegal (hop ▸ reserved)]
  · exact decode_setDir_congr hop setDir hd

/-- Settles O35: an idle block is not in a command, and with nothing from the host no step then changes it. -/
theorem idleBlockHoldsItsState : Obligations.IdleBlockHoldsItsState := fun _ hidle hhost =>
  step_of_nothing hhost (not_inCommand_of_idle hidle)

end Sys2Proof.Machine

/-! Reset and power (70_reset_and_hazards R140 to R143), and a busy block's refusal to take a command (R147). -/

namespace Sys2Proof.Machine

section Abandon

variable {s : State} {k : LineNo} {rem : Count} {m : DelayMs} {run : Bool}

theorem State.abandonRequest_of_powerUp (h : s.ctrl = .powerUp) : s.abandonRequest = s := by
  rw [State.abandonRequest, h]

theorem State.abandonRequest_of_idle (h : s.ctrl = .idle) : s.abandonRequest = s := by
  rw [State.abandonRequest, h]

theorem State.abandonRequest_of_write (h : s.ctrl = .write k rem m run) :
    s.abandonRequest = (s.popReply k).disturbLine k := by
  rw [State.abandonRequest, h]

theorem State.abandonRequest_of_wait (h : s.ctrl = .wait rem m) : s.abandonRequest = s.endWait := by
  rw [State.abandonRequest, h]

@[simp] theorem State.abandonRequest_host (s : State) : s.abandonRequest.host = s.host := by
  unfold State.abandonRequest
  cases s.ctrl <;> rfl

@[simp] theorem State.abandonRequest_trace (s : State) : s.abandonRequest.trace = s.trace := by
  unfold State.abandonRequest
  cases s.ctrl <;> rfl

/-- Only a wait in flight uses up a reply of the delay capability. -/
theorem State.abandonRequest_waits (h : ∀ rem m, s.ctrl ≠ .wait rem m) : s.abandonRequest.waits = s.waits := by
  cases hc : s.ctrl with
  | powerUp => rw [State.abandonRequest_of_powerUp hc]
  | idle => rw [State.abandonRequest_of_idle hc]
  | write k rem m run => rw [State.abandonRequest_of_write hc, State.disturbLine_waits, State.popReply_waits]
  | wait rem m => exact absurd hc (h rem m)

/-- An output capability is touched only while a write to its line is in flight (R142). -/
theorem State.abandonRequest_get (h : ¬ ∃ rem m run, s.ctrl = .write k rem m run) :
    s.abandonRequest.outs.get k = s.outs.get k := by
  cases hc : s.ctrl with
  | powerUp => rw [State.abandonRequest_of_powerUp hc]
  | idle => rw [State.abandonRequest_of_idle hc]
  | write j rem m run =>
    have other : k ≠ j := fun e => h ⟨rem, m, run, e ▸ hc⟩
    rw [State.abandonRequest_of_write hc, State.disturbLine_other _ _ other, State.popReply_outs,
      Outputs.get_set_other _ _ other]
  | wait rem m => rw [State.abandonRequest_of_wait hc, State.endWait_outs]

/-- A line whose write is abandoned is HIGH, LOW or as it was (R15, R142). -/
theorem State.abandonRequest_unspecified (h : s.ctrl = .write k rem m run) :
    LineUnspecified (s.line k) (s.abandonRequest.line k) := by
  have line : (s.popReply k).line k = s.line k := by simp [State.line]
  rw [State.abandonRequest_of_write h, ← line]
  exact (s.popReply k).disturbLine_unspecified k

end Abandon

/-- Settles O2: a reset event wins over whatever the block does, and of the capabilities it touches what abandoning the
request in flight touches. -/
theorem resetFromAnyState : Obligations.ResetFromAnyState := by
  intro s strap later hh
  refine ⟨_, step_of_reset hh, rfl, rfl, rfl, rfl, rfl, State.abandonRequest_trace _, State.abandonRequest_rom _,
    State.abandonRequest_host _, fun k untouched => ?_, fun k rem m run hc => ?_, fun noWait => ?_⟩
  · exact State.abandonRequest_get (s := { s with host := later }) untouched
  · exact State.abandonRequest_unspecified (s := { s with host := later }) hc
  · exact State.abandonRequest_waits (s := { s with host := later }) noWait

section Reset

variable {s : State}

/-- A second reset finds the block idle, so it has nothing left to abandon (R141). -/
theorem State.applyReset_applyReset (s : State) (strap : Bool) :
    (s.applyReset strap).applyReset strap = s.applyReset strap := by
  rw [State.applyReset, State.abandonRequest_of_idle rfl]
  rfl

@[simp] theorem State.applyReset_outs (s : State) (strap : Bool) :
    (s.applyReset strap).outs = s.abandonRequest.outs := rfl

@[simp] theorem State.applyReset_rom (s : State) (strap : Bool) : (s.applyReset strap).rom = s.rom :=
  s.abandonRequest_rom

@[simp] theorem State.applyReset_trace (s : State) (strap : Bool) : (s.applyReset strap).trace = s.trace :=
  s.abandonRequest_trace

/-- The events of a `STEP` whose writes are answered ok: the entry next to the cursor's, then OK (R84). -/
theorem exec_step_trace_of_allOk (hidle : s.ctrl = .idle) (h : s.AllWritesOk) :
    ∃ t, exec .step s = .next t ∧
      t.trace = s.trace ++ batch (romEntry s.rom (advance s.cursor s.dir)) ++ [.rsp .ok] := by
  refine ⟨_, exec_step_of_allOk hidle h, ?_⟩
  rw [State.respond_trace, State.wholeStep_trace, State.pattern_eq]
  rfl

end Reset

/-- Settles O3: a reset leaves the block idle on entry 0 in direction Forward, so the next entry is 1; and after a
`SET_DIR` Reverse it is 7. -/
theorem resetSilentAndRepeatable : Obligations.ResetSilentAndRepeatable := by
  intro s strap
  refine ⟨s.applyReset_applyReset strap, s.applyReset_trace strap, fun idle => ?_, ?_, fun ok => ⟨?_, ?_⟩⟩
  · rw [State.applyReset_outs, State.abandonRequest_of_idle idle]
  · rw [State.pattern_eq, State.applyReset_rom]
    rfl
  · obtain ⟨t, run, trace⟩ := exec_step_trace_of_allOk (s := s.applyReset strap) rfl ok
    rw [State.applyReset_trace, State.applyReset_rom] at trace
    exact ⟨t, run, trace⟩
  · obtain ⟨t, run, trace⟩ :=
      exec_step_trace_of_allOk (s := ((s.applyReset strap).writeDir .reverse).respond .ok) rfl ok
    simp only [State.respond_trace, State.writeDir_trace, State.applyReset_trace, State.respond_rom,
      State.writeDir_rom, State.applyReset_rom] at trace
    refine ⟨t, ?_, trace⟩
    rw [execAll_cons (exec_setDir_of_idle rfl .reverse), execAll_cons run]
    rfl

section PowerUp

variable {s : State}

/-- Before the first reset every command is refused (R143, U18). -/
theorem exec_of_powerUp (h : s.ctrl = .powerUp) (i : Instr) : exec i s = .refused .commandBeforeReset := by
  rw [exec_eq_accept, State.accept, h]

@[simp] theorem Outputs.powerUp_level (o : Outputs) (k : LineNo) : (o.powerUp.get k).level = .unwritten := by
  cases k <;> rfl

theorem State.applyPowerCycle_line (s : State) (k : LineNo) : s.applyPowerCycle.line k = .unwritten :=
  Outputs.powerUp_level _ k

/-- The first reset after power-up has no request to abandon, so it leaves the lines as they are (R143). -/
theorem State.applyReset_line_of_powerUp (h : s.ctrl = .powerUp) (strap : Bool) (k : LineNo) :
    (s.applyReset strap).line k = s.line k := by
  rw [State.line, State.applyReset_outs, State.abandonRequest_of_powerUp h, State.line]

end PowerUp

/-- Settles O4: a power cycle leaves every line unwritten and the block in `powerUp`, where commands are refused and
from which a reset touches no line. -/
theorem powerUpNeedsReset : Obligations.PowerUpNeedsReset := by
  intro s later hh
  refine ⟨_, step_of_powerCycle hh, rfl, State.applyPowerCycle_line _, State.abandonRequest_trace _,
    State.abandonRequest_rom _, State.abandonRequest_host _, exec_of_powerUp rfl, fun strap after hl => ?_⟩
  refine ⟨_, step_of_reset ((State.abandonRequest_host _).trans hl), rfl, rfl, rfl, rfl, fun k => ?_⟩
  exact (State.applyReset_line_of_powerUp (s := { State.applyPowerCycle _ with host := after }) rfl strap k).trans
    (State.applyPowerCycle_line _ k)

theorem cmdReady_of_busy {s : State} (h : s.InCommand) : s.cmdReady = false := by
  obtain ⟨k, rem, m, run, hc⟩ | ⟨rem, m, hc⟩ := h <;> simp [State.cmdReady, State.busy, hc]

/-- Settles O33: of the things a step can do, with a command presented to a busy block only a row of R106 is left, and
that leaves the host's list alone (`tick_frame`). -/
theorem busyBlockTakesNoCommand : Obligations.BusyBlockTakesNoCommand := by
  refine fun s busy => ⟨cmdReady_of_busy busy, fun i => exec_of_busy i busy, fun w later t hh e => ?_⟩
  rcases step_next_cases e with ⟨_, _, hr, -⟩ | ⟨_, hp, -⟩ | ⟨_, _, -, idle, -⟩ | ⟨-, idle, -⟩ | ⟨-, -, -, ticked⟩
  · cases hh.symm.trans hr
  · cases hh.symm.trans hp
  · exact absurd busy idle
  · exact absurd busy idle
  · obtain ⟨-, -, -, host⟩ := tick_frame ticked
    exact host

/-- Settles O19: an idle block has the invariant, and so has one at the first write of a run with two steps to do, with
no line written yet. -/
theorem resetHasRunInv : Obligations.ResetHasRunInv := by
  refine ⟨State.runInv_of_idle rfl, { State.reset with ctrl := .write .one 1 7 true }, .one, 1, 7, ?_, rfl, rfl, rfl⟩
  exact (State.runInv_iff_of_write rfl).mpr ⟨fun j hj => absurd hj j.not_num_lt_one, fun _ => rfl⟩

end Sys2Proof.Machine
